-- ==== Sys2Proof/Word.lean ====
section
/-! DEFINITION. The word type of the unit: `u128` of rule R7 (`00_scope.md`), a 128-bit vector whose bit `i` has weight
`2^i`. Its operators of rule R9 are those of `BitVec 128`: `&&&`, `|||`, `^^^`, `<<<` and `>>>` by a natural amount with
zero fill, unsigned comparisons, and `+`, `-`, which the datapath uses only where the exact result lies in `[0, 2^128)`
(the one modular subtraction, `-%` of rule R48, is the same operator). -/

namespace Sys2Proof

/-- A `u128` (R7): a binary128 pattern, or a significand on its way through the datapath. -/
abbrev Word := BitVec 128

end Sys2Proof
end

