-- ==== Sys2Proof/Config.lean ====
section
/-! DEFINITION. The parameters of rule R6 and the values the spec leaves unspecified. The parameters are plain data and
stand in `State.cfg`, so that a statement over all states is a statement over every choice of them; the unspecified
values are constants without a body, about which nothing can be proved. -/

namespace Sys2Proof

/-- `HOST_BYTE_ORDER` (R6, R29): the order in which a host stores the 16 bytes of a pattern. The block never sees it. -/
inductive ByteOrder where
  | little
  | big
  deriving DecidableEq, Repr

/-- The parameters the source leaves to the implementation (R6), and the delay of item I16 of
`93_implementation_defined.md`. Fixed for a machine: no step writes them. -/
structure Config where
  /-- `LATENCY`: clock cycles from accepting a request to presenting its response; 0 is combinational (R6, R19). -/
  latency : Nat
  /-- `HAS_FPENV`: whether a floating-point environment register exists (R6, R23). -/
  hasFpenv : Bool
  /-- `HOST_BYTE_ORDER` (R6, R29). -/
  hostByteOrder : ByteOrder
  /-- Clock cycles from a write of FPENV.RM to the new value on port `rm` (R97, I16): a parameter of the platform. -/
  rmDelay : Nat
  deriving DecidableEq, Repr

/-- The parameters of the machine that `State.reset` describes. DESIGN CHOICE (logs 2 to 5): the spec leaves each open.
Combinational, with an FPENV whose RM drives port `rm` in the same cycle. -/
def Config.base : Config :=
  { latency := 0, hasFpenv := true, hostByteOrder := .little, rmDelay := 0 }

/-- Port `result` in a cycle with `out_valid = 0`: any value (R19, I1). A free value, chosen by the cycle's count (log 6). -/
opaque Config.freeResult : Nat → Word

/-- Port `nx` in a cycle with `out_valid = 0`: any value (R19, I1). A free value, chosen by the cycle's count (log 6). -/
opaque Config.freeNx : Nat → Bool

/-- The data register of a pipeline stage whose valid bit is 0: any value (R25, R27, I2). A free value, chosen by the
cycle's count and the stage's number (log 7). -/
opaque Config.freeStage : Nat → Nat → BitVec 259

end Sys2Proof
end

