-- ==== Sys2Proof/Syntax.lean ====
section
/-! DEFINITION. The requests of the unit: one constructor for each row of `spec/opcode_table.json` (ADD, rule R45; SUB,
rule R46). The rounding mode is a field of the request, not part of the opcode (R41). -/

namespace Sys2Proof

/-- The four rounding modes (R40), in the source's order. -/
inductive RoundingMode where
  /-- RNE: to nearest, ties to even. -/
  | nearest
  /-- RDN: toward negative infinity. -/
  | downward
  /-- RUP: toward positive infinity. -/
  | upward
  /-- RTZ: toward zero. -/
  | towardZero
  deriving DecidableEq, Repr

/-- A request `(op, rm, a, b)` (R13, R39): `op` is the constructor, `a` is x and `b` is y, both used whole (R41). -/
inductive Instr where
  /-- ADD, `CTRL = 0b0rr` (R45). -/
  | add (rm : RoundingMode) (a b : Word)
  /-- SUB, `CTRL = 0b1rr` (R46). -/
  | sub (rm : RoundingMode) (a b : Word)
  deriving DecidableEq, Repr

end Sys2Proof
end

