-- ==== Sys2Proof/WellFormed.lean ====
section
/-! DEFINITION. Which requests a configuration can present. Every `op` code, every `rm` code and every pair of patterns is
valid (R42), so the one check is on the wiring: without an FPENV port `rm` is tied to Nearest (R23). -/

namespace Sys2Proof

/-- The rounding mode of a request. -/
def Instr.rm : Instr → RoundingMode
  | .add rm _ _ => rm
  | .sub rm _ _ => rm

/-- The request can be sampled on a unit with parameters `cfg`: any request where an FPENV exists (R42), a request in
Nearest where none does (R23). -/
def Instr.wellFormed (cfg : Config) (i : Instr) : Bool :=
  cfg.hasFpenv || i.rm == .nearest

end Sys2Proof
end

