-- ==== Sys2Proof/Decode.lean ====
section
/-! DEFINITION. The encodings of `30_encoding.md`: codes of the rounding modes (R40), the control word `CTRL = {op, rm}`
and the 259-bit request word `{CTRL, a, b}` (R41), the decoder and the encoder. No request word is illegal (R42): decoding
a request word is total. A number that is too large to be a request word is refused by name (log 14). -/

namespace Sys2Proof

/-- The code of a rounding mode on port `rm` (R40). -/
def RoundingMode.code : RoundingMode → BitVec 2
  | .nearest => 0b00#2
  | .downward => 0b01#2
  | .upward => 0b10#2
  | .towardZero => 0b11#2

/-- The rounding mode of a code (R40): all four codes are assigned. -/
def RoundingMode.ofCode (c : BitVec 2) : RoundingMode :=
  if c = 0b00#2 then .nearest
  else if c = 0b01#2 then .downward
  else if c = 0b10#2 then .upward
  else .towardZero

/-- The request word `{op, rm, a, b}` on the input ports (R41): `op` at bit 258, `rm` at bits 257:256, `a` at bits
255:128, `b` at bits 127:0. -/
def requestWord (op : BitVec 1) (rm : BitVec 2) (a b : Word) : BitVec 259 :=
  op ++ rm ++ a ++ b

/-- Bit 258 of a request word: the operation select (R39, R41). -/
def requestOp (w : BitVec 259) : BitVec 1 := w.extractLsb' 258 1

/-- Bits 257:256 of a request word: the rounding-mode code (R40, R41). -/
def requestRm (w : BitVec 259) : BitVec 2 := w.extractLsb' 256 2

/-- Bits 255:128 of a request word: operand `a` (R41). -/
def requestA (w : BitVec 259) : Word := w.extractLsb' 128 128

/-- Bits 127:0 of a request word: operand `b` (R41). -/
def requestB (w : BitVec 259) : Word := w.extractLsb' 0 128

/-- The request a request word denotes (R39 to R42). The opcode map has two rows, selected by `CTRL[2]` alone (R41). -/
def decodeRequest (w : BitVec 259) : Instr :=
  if requestOp w = 0#1 then .add (.ofCode (requestRm w)) (requestA w) (requestB w)
  else .sub (.ofCode (requestRm w)) (requestA w) (requestB w)

/-- Why a number is not a request. -/
inductive DecodeReject where
  /-- The number has a bit above bit 258, so it is no request word (R41). -/
  | widerThanRequest
  deriving DecidableEq, Repr

/-- The request a number denotes, or the reason why it denotes none (R41, R42). -/
def decode (n : Nat) : Except DecodeReject Instr :=
  if n < 2 ^ 259 then .ok (decodeRequest (BitVec.ofNat 259 n)) else .error .widerThanRequest

/-- The request word of a request (R39 to R41). -/
def encode : Instr → BitVec 259
  | .add rm a b => requestWord 0#1 rm.code a b
  | .sub rm a b => requestWord 1#1 rm.code a b

/-- The number of a request word, from the numbering of `spec/opcode_table.json`: bits 2:0 are CTRL, its first word, and
the operands' bits count on from it, `a` at bits 130:3 and `b` from bit 131 (log 12). Bits at and above `nbits` are 0. -/
def tableRequestNumber (nbits w : Nat) : Nat :=
  let n := w % 2 ^ nbits
  2 ^ 256 * (n % 2 ^ 3) + 2 ^ 128 * (n / 2 ^ 3 % 2 ^ 128) + n / 2 ^ 131 % 2 ^ 128 + 2 ^ 259 * (n / 2 ^ 259)

/-- The instruction the decoder reads from a word of the opcode table (log 12). -/
def decodeTableWord (nbits w : Nat) : Option Instr :=
  match decode (tableRequestNumber nbits w) with
  | .ok i => some i
  | .error _ => none

end Sys2Proof
end

