-- ==== Sys2Proof/Machine/State.lean ====
section
/-! DEFINITION. The state of the unit and of what surrounds it: the external FPENV (R20), the pipeline registers (R25), the
output ports (R18), and the host's coming inputs. The block itself holds no architectural state (R15): no registers (R16),
no program counter (R17), no memory (R28). INVENTORY.md lists each field with its rule. -/

namespace Sys2Proof.Machine

/-- The input ports of R18 in one clock cycle, without `rm` (which FPENV drives, R21) and `clk` (which the step is). -/
structure Ports where
  /-- `rst`: synchronous reset, active high (R94). -/
  rst : Bool
  /-- `in_valid`: a request is presented in this cycle. -/
  inValid : Bool
  /-- `op`: operation select (R39). -/
  op : BitVec 1
  /-- `a`: the first operand. -/
  a : Word
  /-- `b`: the second operand. -/
  b : Word
  deriving DecidableEq, Repr

/-- What the host does in one step (R12, R19, R100): it drives the ports for a clock cycle, or it writes a field of FPENV
between two clock edges (log 1). -/
inductive Input where
  /-- One clock cycle with these port values (R19). -/
  | clock (p : Ports)
  /-- A host write of FPENV.RM (R20, R21). -/
  | writeRm (v : BitVec 2)
  /-- A host write of FPENV.NX; writing 0 clears it (R20, R22). -/
  | writeNx (v : Bool)
  deriving DecidableEq, Repr

/-- One pipeline stage (R25): its valid bit and its data registers, which hold the request word they carry (log 7). -/
structure Stage where
  valid : Bool
  data : BitVec 259
  deriving DecidableEq, Repr

/-- The unit, its FPENV and the host's coming inputs. -/
structure State where
  /-- The parameters of R6, fixed for a machine. -/
  cfg : Config
  /-- FPENV (R20): RM at bits 1:0, NX at bit 2. -/
  fpenv : BitVec 3
  /-- Values of FPENV.RM on their way to port `rm`, newest first, one for each cycle of delay (R97, I16). -/
  rmLine : List (BitVec 2)
  /-- The pipeline stages (R25), from the one next to the input to the one next to the output. -/
  pipe : List Stage
  /-- Port `out_valid` (R18) in the latest clock cycle. -/
  outValid : Bool
  /-- Port `result` (R18) in the latest clock cycle. -/
  result : Word
  /-- Port `nx` (R18) in the latest clock cycle. -/
  nx : Bool
  /-- What the host does next, oldest first. -/
  inputs : List Input
  /-- The model's own count of clock cycles, which chooses fresh free values (logs 6, 7). -/
  freeCount : Nat
  deriving DecidableEq, Repr

/-- Why the machine stops: there is no reason. "There are no recoverable error conditions in this domain" (R85); the block
has no illegal encoding (R42), no trap (R91) and no interrupt (R89). -/
inductive Fault where
  deriving DecidableEq, Repr

/-- Why an instruction has no meaning in this model. -/
inductive Refusal where
  /-- An instruction of the opcode table without a meaning. No arm of `exec` raises it. Safe: it claims nothing. -/
  | notModelled (mnemonic : String)
  deriving DecidableEq, Repr

/-- The state right after reset of a machine with parameters `cfg` (R27, R94): valid bits 0, `out_valid` 0, FPENV.RM
Nearest, FPENV.NX 0. With `LATENCY = 0` R27 gives `out_valid` no value of its own, it equals `in_valid`: that `in_valid`,
and so `out_valid`, is 0 there is the model's, DESIGN CHOICE (log 22). The stages' data registers and the ports `result`
and `nx` are unspecified there and hold 0: DESIGN CHOICE (logs 6, 7). -/
def State.resetFor (cfg : Config) : State :=
  { cfg := cfg, fpenv := 0b000#3, rmLine := List.replicate cfg.rmDelay 0b00#2,
    pipe := List.replicate cfg.latency { valid := false, data := 0#259 },
    outValid := false, result := 0#128, nx := false, inputs := [], freeCount := 0 }

/-- The machine right after reset, with the parameters `Config.base` (logs 2 to 5). -/
def State.reset : State := .resetFor Config.base

end Sys2Proof.Machine
end

