-- ==== Sys2Proof/Machine/Operands.lean ====
section
/-! DEFINITION. Operands: the constants of R36, the fields of a pattern (R35), its class (R37), the sign flip (R44, R46),
and the two u128 functions of R10 and R11 that the datapath is written with. -/

namespace Sys2Proof.Machine

/-- `IMPLICIT_BIT = 2^112` (R36). -/
def implicitBit : Word := 0x00010000000000000000000000000000#128

/-- `QUIET_BIT = 2^111` (R36). -/
def quietBit : Word := 0x00008000000000000000000000000000#128

/-- `SIGN_BIT = 2^127` (R36). -/
def signBit : Word := 0x80000000000000000000000000000000#128

/-- `ABS_MASK = SIGN_BIT - 1` (R36). -/
def absMask : Word := 0x7FFFFFFFFFFFFFFFFFFFFFFFFFFFFFFF#128

/-- `EXPONENT_MASK = MAX_EXPONENT << 112` (R36). -/
def exponentMask : Word := 0x7FFF0000000000000000000000000000#128

/-- `SIGNIFICAND_MASK = IMPLICIT_BIT - 1` (R36). -/
def significandMask : Word := 0x0000FFFFFFFFFFFFFFFFFFFFFFFFFFFF#128

/-- `INF_REP`: exponent field all ones, significand 0 (R36). -/
def infRep : Word := 0x7FFF0000000000000000000000000000#128

/-- `QNAN_REP = INF_REP | QUIET_BIT` (R36). -/
def qnanRep : Word := 0x7FFF8000000000000000000000000000#128

/-- `EXPONENT_BIAS = 2^14 - 1` (R5, R36). No operation of the datapath uses it; the value of a pattern does (R38). -/
def exponentBias : Nat := 16383

/-- `MAX_EXPONENT = 2^15 - 1` (R5, R36). -/
def maxExponent : Nat := 32767

/-- The sign `x[127]` of a pattern (R35). -/
def signField (x : Word) : Bool := x.getLsbD 127

/-- The biased exponent field `x[126:112]` of a pattern (R35). -/
def expField (x : Word) : Nat := (x.extractLsb' 112 15).toNat

/-- The significand field `x[111:0]` of a pattern, as a u128: `x & SIGNIFICAND_MASK` (R35, R58). -/
def sigField (x : Word) : Word := x &&& significandMask

/-- The magnitude pattern `x & ABS_MASK` (R37, R48). -/
def absBits (x : Word) : Word := x &&& absMask

/-- `negate(x) = x ^ SIGN_BIT` (R44): flips only the sign bit, of a NaN too (R46). -/
def negate (x : Word) : Word := x ^^^ signBit

/-- Class zero (R37): `e = 0`, `m = 0`. -/
def isZero (x : Word) : Bool := expField x == 0 && sigField x == 0#128

/-- Class denormal (R37): `e = 0`, `m != 0`. -/
def isDenormal (x : Word) : Bool := expField x == 0 && sigField x != 0#128

/-- Class normal (R37): `1 <= e <= 32766`. -/
def isNormal (x : Word) : Bool := 1 ≤ expField x && expField x ≤ 32766

/-- Class infinity (R37): `e = 32767`, `m = 0`. -/
def isInfinite (x : Word) : Bool := expField x == 32767 && sigField x == 0#128

/-- Class quiet NaN (R37): `e = 32767`, `m[111] = 1`. -/
def isQuietNaN (x : Word) : Bool := expField x == 32767 && (sigField x).getLsbD 111

/-- Class signaling NaN (R37): `e = 32767`, `m != 0`, `m[111] = 0`. -/
def isSignalingNaN (x : Word) : Bool :=
  expField x == 32767 && sigField x != 0#128 && !(sigField x).getLsbD 111

/-- A NaN, quiet or signaling (R37). -/
def isNaN (x : Word) : Bool := isQuietNaN x || isSignalingNaN x

/-- A finite pattern: zero, denormal or normal (R37). -/
def isFinite (x : Word) : Bool := isZero x || isDenormal x || isNormal x

/-- `clz128` (R10): `127 - floor(log2 v)` for `v > 0`, and 128 for 0. -/
def clz128 (v : Word) : Nat := if v = 0#128 then 128 else 127 - Nat.log2 v.toNat

/-- A condition as a u128, `bool(c)` of R9 in bit 0. -/
def boolWord (c : Bool) : Word := if c then 1#128 else 0#128

/-- `srj`, shift right with sticky (R11): the OR of every bit shifted out goes into bit 0. -/
def srj (v : Word) (n : Nat) : Word :=
  if n = 0 then v
  else if n ≤ 127 then (v >>> n) ||| boolWord (v <<< (128 - n) != 0#128)
  else boolWord (v != 0#128)

end Sys2Proof.Machine
end

