-- ==== Sys2Proof/Machine/Flags.lean ====
section
/-! DEFINITION. The one flag of the unit, inexact (R26, R86), and FPENV, the register that records it (R20 to R23). No other
flag exists (R87). -/

namespace Sys2Proof.Machine

/-- FPENV.RM, bits 1:0 (R20). -/
def fpenvRm (f : BitVec 3) : BitVec 2 := f.extractLsb' 0 2

/-- FPENV.NX, bit 2 (R20). -/
def fpenvNx (f : BitVec 3) : Bool := f.getLsbD 2

/-- FPENV from its two fields (R20). -/
def fpenvOf (rm : BitVec 2) (nx : Bool) : BitVec 3 := BitVec.ofBool nx ++ rm

/-- FPENV with another RM (R21). -/
def setFpenvRm (f : BitVec 3) (rm : BitVec 2) : BitVec 3 := fpenvOf rm (fpenvNx f)

/-- FPENV with another NX (R22). -/
def setFpenvNx (f : BitVec 3) (nx : Bool) : BitVec 3 := fpenvOf (fpenvRm f) nx

/-- `FPENV.NX <- FPENV.NX | nx` (R22), sticky; without an FPENV `nx` is recorded nowhere (R23). -/
def raiseInexact (hasFpenv : Bool) (nx : Bool) (f : BitVec 3) : BitVec 3 :=
  if hasFpenv then setFpenvNx f (fpenvNx f || nx) else f

/-- The three round bits `rgs = sig_n & 0b111` (R75), compared as one number. -/
def roundBits (sigN : Word) : Nat := (sigN &&& 0b111#128).toNat

/-- `nx_g = bool(rgs != 0)` (R82), whatever the rounding mode. -/
def inexactOf (rgs : Nat) : Bool := rgs != 0

end Sys2Proof.Machine
end

