-- ==== Sys2Proof/Machine/Ops.lean ====
section
/-! DEFINITION. The named operations over State: sampling a request at the ports, the pipeline and the delay line of port
`rm`, presenting a response, host writes of FPENV. There is no memory and no general register to read or write (R16, R28),
and no exception to take or return from (R85, R91): those shared operations do not exist on this unit. -/

namespace Sys2Proof.Machine

/-- The ports in a cycle in which the host asks for nothing (log 13). -/
def Ports.idle : Ports := { rst := false, inValid := false, op := 0#1, a := 0#128, b := 0#128 }

/-- A list with its last entry replaced. -/
def setLast {α : Type} (x : α) : List α → List α
  | [] => []
  | [_] => [x]
  | y :: z :: ys => y :: setLast x (z :: ys)

/-- What leaves a line of registers when `x` enters it: its last entry, or `x` itself where the line has no register. -/
def lineOut {α : Type} (x : α) (line : List α) : α := (x :: line).getLast (List.cons_ne_nil x line)

/-- A line of registers after a clock edge at which `x` enters it. -/
def lineShift {α : Type} (x : α) (line : List α) : List α := (x :: line).dropLast

/-- Port `rm` (R21, R23): FPENV.RM, `rmDelay` cycles late (R97, I16); tied to `0b00` without an FPENV. -/
def State.portRm (s : State) : BitVec 2 :=
  if s.cfg.hasFpenv then lineOut (fpenvRm s.fpenv) s.rmLine else 0b00#2

/-- Whether `rst` acts in a cycle (R94): with `LATENCY = 0` the block has no register and `rst` has no effect. -/
def State.resetting (s : State) (p : Ports) : Bool := p.rst && s.cfg.latency != 0

/-- Whether a request is accepted in a cycle (R19, R94). -/
def State.accepts (s : State) (p : Ports) : Bool := p.inValid && !s.resetting p

/-- The request word at the ports in a cycle (R19, R21): all of it is sampled together. -/
def State.sampled (s : State) (p : Ports) : BitVec 259 := requestWord p.op s.portRm p.a p.b

/-- What enters the pipeline in a cycle (R19, R25). -/
def State.entering (s : State) (p : Ports) : Stage := { valid := s.accepts p, data := s.sampled p }

/-- The stages with the data of every invalid one unspecified (R25, R27, I2): a free value (log 7). `cycle` is the count
of clock cycles and `k` the number of the first stage of the list. -/
def forgetInvalid (cycle : Nat) : Nat → List Stage → List Stage
  | _, [] => []
  | k, st :: rest =>
    (if st.valid then st else { valid := false, data := Config.freeStage cycle k }) :: forgetInvalid cycle (k + 1) rest

/-- The stages with every valid bit 0 (R94). -/
def clearValid (stages : List Stage) : List Stage := stages.map fun st => { st with valid := false }

/-- The stages after the clock edge that ends a cycle (R19, R25, R94). -/
def State.pipeAfter (s : State) (p : Ports) : List Stage :=
  forgetInvalid s.freeCount 0
    (if s.resetting p then clearValid s.pipe else lineShift (s.entering p) s.pipe)

/-- The request whose response is presented in a cycle (R19): the one that has passed every stage, or, with
`LATENCY = 0`, the one at the ports. None while reset acts: `out_valid` is 0 (R27) and a request in flight is dropped
(R95). -/
def State.leaving (s : State) (p : Ports) : Option (BitVec 259) :=
  let out := lineOut (s.entering p) s.pipe
  if out.valid && !s.resetting p then some out.data else none

/-- The state at the end of a clock cycle in which no response is presented: the registers have taken their next values,
`out_valid` is 0, `result` and `nx` are unspecified (R19, R27; log 6). -/
def State.clockEdge (s : State) (p : Ports) : State :=
  { s with
    rmLine := lineShift (fpenvRm s.fpenv) s.rmLine
    pipe := s.pipeAfter p
    outValid := false
    result := Config.freeResult s.freeCount
    nx := Config.freeNx s.freeCount
    freeCount := s.freeCount + 1 }

/-- A response `(result, nx)` of the unit (R13). -/
structure Response where
  result : Word
  nx : Bool
  deriving DecidableEq, Repr

/-- Presenting a response (R19, R22): `out_valid = 1`, `result` and `nx` hold it, and FPENV.NX records `nx`. -/
def State.present (s : State) (r : Response) : State :=
  { s with
    outValid := true
    result := r.result
    nx := r.nx
    fpenv := raiseInexact s.cfg.hasFpenv r.nx s.fpenv }

/-- A host write of FPENV.RM (R20, R21). Without an FPENV there is no register to write (R23; log 10). -/
def State.hostWriteRm (s : State) (v : BitVec 2) : State :=
  { s with fpenv := if s.cfg.hasFpenv then setFpenvRm s.fpenv v else s.fpenv }

/-- A host write of FPENV.NX (R20, R22; log 11). Without an FPENV there is no register to write (R23; log 10). -/
def State.hostWriteNx (s : State) (v : Bool) : State :=
  { s with fpenv := if s.cfg.hasFpenv then setFpenvNx s.fpenv v else s.fpenv }

/-- The next thing the host does; a clock cycle without a request when it has nothing planned (log 13). -/
def State.nextInput (s : State) : Input :=
  match s.inputs with
  | [] => .clock Ports.idle
  | i :: _ => i

/-- The state once the host's next input is taken. -/
def State.takeInput (s : State) : State := { s with inputs := s.inputs.tail }

/-- The ports that carry a request word, in a cycle without reset (R18, R41). -/
def Ports.ofRequest (w : BitVec 259) : Ports :=
  { rst := false, inValid := true, op := requestOp w, a := requestA w, b := requestB w }

/-- The state in which request `w` is the one whose response the next step presents (log 12): with `LATENCY = 0` it is at
the ports of the next cycle, its rounding mode on port `rm`; otherwise it is in the last pipeline stage. -/
def State.placeRequest (s : State) (w : BitVec 259) : State :=
  match s.pipe, s.rmLine with
  | [], [] =>
    { s with inputs := .clock (.ofRequest w) :: s.inputs, fpenv := setFpenvRm s.fpenv (requestRm w) }
  | [], line =>
    { s with inputs := .clock (.ofRequest w) :: s.inputs, rmLine := setLast (requestRm w) line }
  | stages, _ =>
    { s with inputs := .clock Ports.idle :: s.inputs, pipe := setLast { valid := true, data := w } stages }

end Sys2Proof.Machine
end

