-- ==== Sys2Proof/Machine/Special.lean ====
section
/-! DEFINITION. The special-value classifier and its fast paths (`40_add_subtract_top.md`, R48 to R55). -/

namespace Sys2Proof.Machine

/-- Special-path entry (R48): `(xabs -% 1) >= INF_REP - 1` or the same of `yabs`, the subtraction modulo `2^128`. -/
def specialEntry (xs ys : Word) : Bool :=
  absBits xs - 1#128 ≥ infRep - 1#128 || absBits ys - 1#128 ≥ infRep - 1#128

/-- The six steps inside the special path, first match wins (R49 to R54). When none matches the general path follows,
which R55 says never happens (log 16). -/
def specialSteps (xs ys : Word) : Option Word :=
  if absBits xs > infRep then some (xs ||| quietBit)
  else if absBits ys > infRep then some (ys ||| quietBit)
  else if absBits xs = infRep then some (if xs ^^^ ys = signBit then qnanRep else xs)
  else if absBits ys = infRep then some ys
  else if absBits xs = 0#128 then some (if absBits ys = 0#128 then xs &&& ys else ys)
  else if absBits ys = 0#128 then some xs
  else none

/-- `SPECIAL` (R47, R48): the special-path result, or none where the general path computes the response. -/
def special (xs ys : Word) : Option Word :=
  if specialEntry xs ys then specialSteps xs ys else none

end Sys2Proof.Machine
end

