-- ==== Sys2Proof/Machine/Align.lean ====
section
/-! DEFINITION. `fp_adder_align_shifter` (`41_align_shifter.md`, R57 to R64). -/

namespace Sys2Proof.Machine

/-- The output signals of the align shifter (R24). -/
structure AlignOut where
  /-- `sig_a`: the major significand, implicit bit at bit 115. -/
  sigA : Word
  /-- `sig_b`: the minor significand, aligned, with sticky. -/
  sigB : Word
  /-- `exp_a`: the major operand's exponent after normalisation. -/
  expA : Int
  /-- `sign_r`: 0 or `SIGN_BIT`. -/
  signR : Word
  /-- `is_sub`: effective subtraction. -/
  isSub : Bool
  deriving DecidableEq, Repr

/-- The major operand (R57): the one of larger magnitude pattern; equal magnitudes are not swapped. -/
def majorOf (xs ys : Word) : Word := if absBits ys > absBits xs then ys else xs

/-- The minor operand (R57): the other one. -/
def minorOf (xs ys : Word) : Word := if absBits ys > absBits xs then xs else ys

/-- `NORMALIZE` (R59): a denormal's significand is shifted left until bit 112 is set, with exponent `1 - sh`. -/
def normalizeOperand (e : Nat) (m : Word) : Int × Word :=
  if e = 0 then
    let sh := clz128 m - clz128 implicitBit
    (1 - (sh : Int), m <<< sh)
  else ((e : Int), m)

/-- The exponent of an operand after field extraction and normalisation (R58, R59). -/
def operandExp (x : Word) : Int := (normalizeOperand (expField x) (sigField x)).1

/-- The significand of an operand after field extraction and normalisation (R58, R59). -/
def operandSig (x : Word) : Word := (normalizeOperand (expField x) (sigField x)).2

/-- Guard-bit extension (R61): the implicit bit is ORed in before the shift by 3. -/
def extendGuard (m : Word) : Word := (m ||| implicitBit) <<< 3

/-- The alignment amount (R62), from the exponents after normalisation. -/
def alignAmount (xs ys : Word) : Int := operandExp (majorOf xs ys) - operandExp (minorOf xs ys)

/-- `ALIGN` (R57 to R63). The sticky bit is of the bits discarded from the minor significand (R63, C1). -/
def alignShift (xs ys : Word) : AlignOut :=
  { sigA := extendGuard (operandSig (majorOf xs ys))
    sigB := srj (extendGuard (operandSig (minorOf xs ys))) (alignAmount xs ys).toNat
    expA := operandExp (majorOf xs ys)
    signR := majorOf xs ys &&& signBit
    isSub := (majorOf xs ys ^^^ minorOf xs ys) &&& signBit != 0#128 }

end Sys2Proof.Machine
end

