-- ==== Sys2Proof/Machine/SigAdd.lean ====
section
/-! DEFINITION. `fp_significand_adder` (`42_significand_adder.md`, R65 to R68). -/

namespace Sys2Proof.Machine

/-- The output signals of the significand adder (R24). -/
structure SigAddOut where
  /-- `sum`: the raw sum or difference. -/
  sum : Word
  /-- `zero`: exact cancellation. -/
  zero : Bool
  deriving DecidableEq, Repr

/-- `SIGADD` (R65 to R67). Neither the difference nor the sum wraps on what the align shifter gives (R68). -/
def sigAdd (sigA sigB : Word) (isSub : Bool) : SigAddOut :=
  if isSub then { sum := sigA - sigB, zero := sigA - sigB == 0#128 }
  else { sum := sigA + sigB, zero := false }

end Sys2Proof.Machine
end

