-- ==== Sys2Proof/Machine/Renorm.lean ====
section
/-! DEFINITION. `fp_renormalizer` (`43_renormalizer.md`, R69 to R74). -/

namespace Sys2Proof.Machine

/-- The output signals of the renormalizer (R24). -/
structure RenormOut where
  /-- `sig_n`: the significand with three low round bits. -/
  sigN : Word
  /-- `exp_n`: the final biased exponent field value. -/
  expN : Int
  /-- `ovf`: exponent overflow. -/
  ovf : Bool
  deriving DecidableEq, Repr

/-- Carry normalisation (R69) and cancellation normalisation (R70): the significand and exponent in normal form (R71). -/
def normalizeSum (sum : Word) (expA : Int) (isSub : Bool) : Word × Int :=
  if isSub then
    if sum < implicitBit <<< 3 then
      let sh := clz128 sum - clz128 (implicitBit <<< 3)
      (sum <<< sh, expA - (sh : Int))
    else (sum, expA)
  else
    if sum &&& (implicitBit <<< 4) != 0#128 then ((sum >>> 1) ||| (sum &&& 1#128), expA + 1)
    else (sum, expA)

/-- `RENORM` (R69 to R73): overflow (R72), underflow to the denormal range with sticky (R73). -/
def renormalize (sum : Word) (expA : Int) (isSub : Bool) : RenormOut :=
  let (s, e) := normalizeSum sum expA isSub
  if e ≥ (maxExponent : Int) then { sigN := s, expN := e, ovf := true }
  else if e ≤ 0 then { sigN := srj s (1 - e).toNat, expN := 0, ovf := false }
  else { sigN := s, expN := e, ovf := false }

end Sys2Proof.Machine
end

