-- ==== Sys2Proof/Machine/Round.lean ====
section
/-! DEFINITION. `fp_round_unit` (`44_round_unit.md`, R75 to R84). -/

namespace Sys2Proof.Machine

/-- Packing (R76): the significand field, the exponent field and the sign. -/
def pack (sigN : Word) (expN : Int) (signR : Word) : Word :=
  ((sigN >>> 3) &&& significandMask) ||| (BitVec.ofNat 128 expN.toNat <<< 112) ||| signR

/-- The rounding increment of each mode (R77 to R80). It adds to the whole pattern, so a carry reaches the exponent field,
and infinity (R81). -/
def roundIncrement (rm : RoundingMode) (rgs : Nat) (signR r : Word) : Word :=
  match rm with
  | .nearest => if rgs > 0b100 then r + 1#128 else if rgs = 0b100 then r + (r &&& 1#128) else r
  | .downward => if signR != 0#128 && rgs != 0 then r + 1#128 else r
  | .upward => if signR == 0#128 && rgs != 0 then r + 1#128 else r
  | .towardZero => r

/-- `ROUND` (R75 to R83): signed infinity with `nx = 1` on overflow in every mode (R83), else the packed and rounded
pattern with `nx` set when a round bit is (R82). -/
def roundUnit (sigN : Word) (expN : Int) (signR : Word) (rm : RoundingMode) (ovf : Bool) : Response :=
  if ovf then { result := infRep ||| signR, nx := true }
  else
    { result := roundIncrement rm (roundBits sigN) signR (pack sigN expN signR)
      nx := inexactOf (roundBits sigN) }

end Sys2Proof.Machine
end

