-- ==== Sys2Proof/Machine/AddSub.lean ====
section
/-! DEFINITION. The core function FADD (R47, R56) and the meanings of the two operations, ADD (R45) and SUB (R46). -/

namespace Sys2Proof.Machine

/-- The general path of FADD (R47, R56): align, add, and, unless the operands cancel exactly (R66), renormalize and
round. -/
def faddGeneral (rm : RoundingMode) (xs ys : Word) : Response :=
  let al := alignShift xs ys
  let sa := sigAdd al.sigA al.sigB al.isSub
  if sa.zero then { result := 0#128, nx := false }
  else
    let rn := renormalize sa.sum al.expA al.isSub
    roundUnit rn.sigN rn.expN al.signR rm rn.ovf

/-- `FADD` (R47): the special path, which never sets `nx` (R48), else the general path. -/
def fadd (rm : RoundingMode) (xs ys : Word) : Response :=
  match special xs ys with
  | some r => { result := r, nx := false }
  | none => faddGeneral rm xs ys

/-- ADD (R45): `(result, nx) <- FADD(rm, a, b)`, presented as R19 and R22 say. -/
def execAdd (rm : RoundingMode) (a b : Word) (s : State) : Host.Outcome State Fault Refusal :=
  .next (s.present (fadd rm a b))

/-- SUB (R46): `(result, nx) <- FADD(rm, a, b ^ SIGN_BIT)`, for a NaN `b` too, presented as R19 and R22 say. -/
def execSub (rm : RoundingMode) (a b : Word) (s : State) : Host.Outcome State Fault Refusal :=
  .next (s.present (fadd rm a (negate b)))

end Sys2Proof.Machine
end

