-- ==== Sys2Proof/Machine/Dispatch.lean ====
section
/-! DEFINITION. One arm for each constructor of Instr. -/

namespace Sys2Proof.Machine

def exec (i : Instr) (s : State) : Host.Outcome State Fault Refusal :=
  match i with
  | .add rm a b => Sys2Proof.Machine.execAdd rm a b s
  | .sub rm a b => Sys2Proof.Machine.execSub rm a b s

end Sys2Proof.Machine
end

