-- ==== Sys2Proof/Machine/Step.lean ====
section
/-! DEFINITION. One step: the host's next input is taken (R100, log 1). A host write changes FPENV; a clock cycle moves
the pipeline and, when a request has passed it, runs that request, which presents its response (R19). -/

namespace Sys2Proof.Machine

/-- One step of the machine. -/
def step (s : State) : Host.Outcome State Fault Refusal :=
  match s.nextInput with
  | .writeRm v => .next (s.takeInput.hostWriteRm v)
  | .writeNx v => .next (s.takeInput.hostWriteNx v)
  | .clock p =>
    match s.leaving p with
    | some w => exec (decodeRequest w) (s.takeInput.clockEdge p)
    | none => .next (s.takeInput.clockEdge p)

/-- The state with a word of the opcode table placed where the next step runs it (log 12). -/
def State.withFetchWord (s : State) (nbits w : Nat) : State :=
  s.placeRequest (BitVec.ofNat 259 (tableRequestNumber nbits w))

end Sys2Proof.Machine
end

