-- ==== Sys2Proof/Machine/Assembler.lean ====
section
/-! DEFINITION. The spec's notation for requests (R43): `rD = ADD <rm> <a>, <b>` and `rD = SUB <rm> <a>, <b>`, as data; its
text form is not modelled (log 20). It is notation for the host's programs; no step uses it. There is no pseudo-operation
(R44). -/

namespace Sys2Proof.Machine

/-- The two mnemonics (R43). -/
inductive Mnemonic where
  | add
  | sub
  deriving DecidableEq, Repr

/-- An operand of an assembler line (R43): a pattern, or the name `rK` of an earlier result. -/
inductive AsmOperand where
  | pattern (v : Word)
  | result (k : Nat)
  deriving DecidableEq, Repr

/-- An assembler line `rD = ADD <rm> <a>, <b>` or `rD = SUB <rm> <a>, <b>` (R43). -/
structure AsmLine where
  dest : Nat
  op : Mnemonic
  rm : RoundingMode
  a : AsmOperand
  b : AsmOperand
  deriving DecidableEq, Repr

/-- The pattern of an operand, given the results named so far; none for a name that no earlier request has. -/
def AsmOperand.value (results : List (Nat × Word)) : AsmOperand → Option Word
  | .pattern v => some v
  | .result k => results.lookup k

/-- The request a line asks for (R43); the mnemonic and the mode assemble to CTRL by `encode` (R41). -/
def AsmLine.assemble (results : List (Nat × Word)) (l : AsmLine) : Option Instr :=
  match l.a.value results, l.b.value results with
  | some x, some y =>
    match l.op with
    | .add => some (.add l.rm x y)
    | .sub => some (.sub l.rm x y)
  | _, _ => none

end Sys2Proof.Machine
end

