-- ==== Sys2Proof/Machine/HostImage.lean ====
section
/-! DEFINITION. How a host keeps a pattern in its own memory (R29, R30; program P5 of `95_test_vectors.md`). This is outside
the unit, which has no memory (R28) and never sees the bytes: no step uses it (log 19). -/

namespace Sys2Proof.Machine

/-- Why a host's access to a stored pattern is refused. Safe: the access claims nothing. -/
inductive StorageReject where
  /-- The address is not 16-byte aligned: a precondition of the platform (R30, R88, I6), never a fault of the block. -/
  | misaligned
  /-- A byte of the pattern is not in the memory given. -/
  | absent
  deriving DecidableEq, Repr

/-- The 16 bytes of a pattern, lowest address first (R29). -/
def hostBytes (o : ByteOrder) (v : Word) : List (BitVec 8) :=
  let little := (List.range 16).map fun i => v.extractLsb' (8 * i) 8
  match o with
  | .little => little
  | .big => little.reverse

/-- The pattern whose bytes, the least significant first, are these. -/
def patternOfLittle : List (BitVec 8) → Word
  | [] => 0#128
  | b :: bs => (patternOfLittle bs <<< 8) ||| b.zeroExtend 128

/-- The pattern whose bytes in a host's memory are these, lowest address first (R29). -/
def patternOfBytes (o : ByteOrder) (bytes : List (BitVec 8)) : Word :=
  match o with
  | .little => patternOfLittle bytes
  | .big => patternOfLittle bytes.reverse

/-- The cells a host's store of a pattern writes (R29, R30). -/
def hostStore (o : ByteOrder) (addr : Nat) (v : Word) : Except StorageReject (List Host.Cell) :=
  if addr % 16 = 0 then .ok (((List.range 16).map (addr + ·)).zip (hostBytes o v)) else .error .misaligned

/-- The bytes at `n` addresses from `addr` on. -/
def hostBytesAt (mem : List Host.Cell) (addr : Nat) : Nat → Option (List (BitVec 8))
  | 0 => some []
  | n + 1 =>
    match mem.lookup addr, hostBytesAt mem (addr + 1) n with
    | some b, some bs => some (b :: bs)
    | _, _ => none

/-- The pattern a host loads from its memory (R29, R30). -/
def hostLoad (o : ByteOrder) (mem : List Host.Cell) (addr : Nat) : Except StorageReject Word :=
  if addr % 16 = 0 then
    match hostBytesAt mem addr 16 with
    | some bytes => .ok (patternOfBytes o bytes)
    | none => .error .absent
  else .error .misaligned

end Sys2Proof.Machine
end

