-- ==== Sys2Proof/Safety.lean ====
section
/-! DEFINITION. The terms the claims are stated in: the invariant of the machine's states, the requests in flight, the
transaction-level machine of R100, and the values of patterns (R38). No step of the machine uses them. A run of this
machine never faults (R85), so a claim about a run is a claim about what it answers. -/

namespace Sys2Proof.Machine

/-- What holds in every state the machine reaches: as many pipeline stages as `LATENCY` (R25), as many delay registers as
the wrapper's delay (I16; the line is the model's, log 5), and, where no FPENV exists, its field at the reset value (the
model's choice, log 10) and every request in flight, held in a stage's data (log 7), sampled with port `rm` at `0b00`
(R23). -/
structure State.Inv (s : State) : Prop where
  pipe_length : s.pipe.length = s.cfg.latency
  rmLine_length : s.rmLine.length = s.cfg.rmDelay
  noFpenv_fpenv : s.cfg.hasFpenv = false → s.fpenv = 0b000#3
  noFpenv_nearest : s.cfg.hasFpenv = false → ∀ st ∈ s.pipe, st.valid = true → requestRm st.data = 0b00#2

/-- `xs` of a request: its operand `a` (R47). -/
def xsOf : Instr → Word
  | .add _ a _ => a
  | .sub _ a _ => a

/-- `ys` of a request: its operand `b`, with the sign bit flipped for SUB (R47). -/
def ysOf : Instr → Word
  | .add _ _ b => b
  | .sub _ _ b => negate b

/-- The response to a request (R13, R45, R46): a function of the request alone. -/
def answerOf (i : Instr) : Response := fadd i.rm (xsOf i) (ysOf i)

/-- The number of clock cycles among the host's inputs. -/
def clockCount (l : List Input) : Nat :=
  l.countP fun i =>
    match i with
    | .clock _ => true
    | _ => false

/-- The host's inputs end with a clock cycle, or there are none. -/
def endsInClock (l : List Input) : Prop := ∀ i, l.getLast? = some i → ∃ q, i = .clock q

/-- The requests accepted and not yet answered, oldest first (R100). -/
def State.inFlight (s : State) : List (BitVec 259) := ((s.pipe.filter (·.valid)).map (·.data)).reverse

/-- The transaction-level state of R100: FPENV.RM, FPENV.NX and the requests in flight, oldest first. -/
structure Transactions where
  rm : BitVec 2
  nx : Bool
  inFlight : List (BitVec 259)
  deriving DecidableEq, Repr

/-- A state seen at the transaction level (R100). -/
def State.transactions (s : State) : Transactions :=
  { rm := fpenvRm s.fpenv, nx := fpenvNx s.fpenv, inFlight := s.inFlight }

/-- A host step that appends a request (R100). -/
def Transactions.append (τ : Transactions) (w : BitVec 259) : Transactions :=
  { τ with inFlight := τ.inFlight ++ [w] }

/-- One step of the block (R100): it takes the oldest request in flight, delivers its response, and sets FPENV.NX where
an FPENV exists. None when no request is in flight. -/
def Transactions.answer (hasFpenv : Bool) (τ : Transactions) : Option (Response × Transactions) :=
  match τ.inFlight with
  | [] => none
  | w :: rest =>
    let r := answerOf (decodeRequest w)
    some (r, { τ with nx := τ.nx || (hasFpenv && r.nx), inFlight := rest })

/-- Two pipelines agree on every valid bit and on the data of every valid stage (R25). -/
def stagesAgree (l l' : List Stage) : Prop :=
  List.Forall₂ (fun st st' => st.valid = st'.valid ∧ (st.valid = true → st.data = st'.data)) l l'

/-- Two states differ at most in the data registers of invalid stages (R25, I2). -/
def State.agrees (s s' : State) : Prop :=
  stagesAgree s.pipe s'.pipe ∧ s' = { s with pipe := s'.pipe }

/-- The value of a finite pattern (R38): `(-1)^s * 2^(e - 16383) * (2^112 + m) / 2^112` for a normal one,
`(-1)^s * 2^(1 - 16383) * m / 2^112` for a denormal or a zero. -/
def valueOf (x : Word) : ℚ :=
  (if signField x then -1 else 1) *
    (if expField x = 0 then 2 ^ ((1 : ℤ) - 16383) * ((sigField x).toNat : ℚ) / 2 ^ 112
     else 2 ^ ((expField x : ℤ) - 16383) * (2 ^ 112 + ((sigField x).toNat : ℚ)) / 2 ^ 112)

/-- The exact sum or difference a request asks for. -/
def exactOf : Instr → ℚ
  | .add _ a b => valueOf a + valueOf b
  | .sub _ a b => valueOf a - valueOf b

/-- `2^16384`, the least power of two above every finite value (R72). -/
def overflowLimit : ℚ := 2 ^ 16384

/-- The value of the largest finite pattern `0x7FFE_FFFF_…_FFFF` (R38). -/
def largestFinite : ℚ := 2 ^ 16384 - 2 ^ 16271

/-- The exact sums whose result is infinite (R72, R81, R83): in every mode those of magnitude `2^16384` or more, and
otherwise those the mode rounds beyond the largest finite value. -/
def overflowsIn (rm : RoundingMode) (v : ℚ) : Prop :=
  match rm with
  | .nearest => 2 ^ 16384 - 2 ^ 16270 ≤ |v|
  | .downward => overflowLimit ≤ v ∨ v < -largestFinite
  | .upward => largestFinite < v ∨ v ≤ -overflowLimit
  | .towardZero => overflowLimit ≤ |v|

/-- A finite pattern is the rounding of an exact value to nearest, ties to even (R77, glossary of R14): no finite pattern is
nearer, and where another value is as near, the pattern's lowest bit is 0. -/
def isNearest (v : ℚ) (r : Word) : Prop :=
  ∀ p, isFinite p = true → |valueOf r - v| ≤ |valueOf p - v| ∧
    (|valueOf r - v| = |valueOf p - v| → valueOf p ≠ valueOf r → r.getLsbD 0 = false)

/-- A finite pattern is the rounding of an exact value toward negative infinity (R78). -/
def isGreatestBelow (v : ℚ) (r : Word) : Prop :=
  valueOf r ≤ v ∧ ∀ p, isFinite p = true → valueOf p ≤ v → valueOf p ≤ valueOf r

/-- A finite pattern is the rounding of an exact value toward positive infinity (R79). -/
def isLeastAbove (v : ℚ) (r : Word) : Prop :=
  v ≤ valueOf r ∧ ∀ p, isFinite p = true → v ≤ valueOf p → valueOf r ≤ valueOf p

/-- A finite pattern is the rounding of an exact value in a mode (R77 to R80); toward zero is downward for a value that is
not negative and upward for one that is not positive. -/
def isRounded (rm : RoundingMode) (v : ℚ) (r : Word) : Prop :=
  match rm with
  | .nearest => isNearest v r
  | .downward => isGreatestBelow v r
  | .upward => isLeastAbove v r
  | .towardZero => (0 ≤ v → isGreatestBelow v r) ∧ (v ≤ 0 → isLeastAbove v r)

/-- The mode with Downward and Upward exchanged (R101). -/
def mirrored : RoundingMode → RoundingMode
  | .nearest => .nearest
  | .downward => .upward
  | .upward => .downward
  | .towardZero => .towardZero

end Sys2Proof.Machine
end

