-- ==== Sys2Proof/Certificates/Slice0/Obligations.lean ====
section
/-! DEFINITION. The statements for the provers. Each docstring names the rules of `spec/` it formalises. `a` and `b` are the
operands on the ports, `xsOf i` and `ysOf i` the operands after the sign flip of SUB (R47), `s.present r` the state in which
response `r` is presented, spelled out field by field in `AddCompletes` and `SubCompletes`. -/

open Sys2Proof Sys2Proof.Machine

/-! ### Encoding -/

/-- R41: decoding the request word of a request gives the request back, as a word and as a number. -/
def Obligations.DecodeInvertsEncode : Prop :=
  ∀ i : Instr, decodeRequest (encode i) = i ∧ decode (encode i).toNat = .ok i

/-- R41, R42: every request word is the encoding of exactly the request it decodes to. -/
def Obligations.EncodeInvertsDecode : Prop :=
  ∀ w : BitVec 259, encode (decodeRequest w) = w

/-- R39, R41: `op`, 0 for ADD and 1 for SUB, is bit 258 of the request word, `rm` bits 257:256, `a` bits 255:128, `b` bits
127:0, and bit 258 alone selects the row of the opcode map. -/
def Obligations.RequestWordLayout : Prop :=
  (∀ (rm : RoundingMode) (a b : Word),
    (encode (.add rm a b)).toNat = 0 * 2 ^ 258 + rm.code.toNat * 2 ^ 256 + a.toNat * 2 ^ 128 + b.toNat ∧
    (encode (.sub rm a b)).toNat = 1 * 2 ^ 258 + rm.code.toNat * 2 ^ 256 + a.toNat * 2 ^ 128 + b.toNat) ∧
  ∀ w : BitVec 259,
    ((∃ rm a b, decodeRequest w = .add rm a b) ↔ w.getLsbD 258 = false) ∧
    ((∃ rm a b, decodeRequest w = .sub rm a b) ↔ w.getLsbD 258 = true)

/-- R40: the codes number the modes in the listed order; every code is a mode's. -/
def Obligations.RoundingModeCodes : Prop :=
  RoundingMode.ofCode 0b00#2 = .nearest ∧ RoundingMode.ofCode 0b01#2 = .downward ∧
  RoundingMode.ofCode 0b10#2 = .upward ∧ RoundingMode.ofCode 0b11#2 = .towardZero ∧
  ∀ c : BitVec 2, (RoundingMode.ofCode c).code = c

/-- R42: every number of 259 bits denotes a request, and every request completes in every state. -/
def Obligations.NoRequestIsIllegal : Prop :=
  ∀ n : Nat, n < 2 ^ 259 → ∃ i, decode n = .ok i ∧ ∀ s, ∃ t, exec i s = .next t

/-- R39 to R41, a sanity statement on words written out from the rules: `ADD RTZ 1.0, 2.0` and `SUB RUP` of two zeros. -/
def Obligations.WordsWrittenFromTheSpec : Prop :=
  decodeRequest 0x33FFF000000000000000000000000000040000000000000000000000000000000#259 =
    .add .towardZero 0x3FFF0000000000000000000000000000#128 0x40000000000000000000000000000000#128 ∧
  decodeRequest 0x60000000000000000000000000000000000000000000000000000000000000000#259 = .sub .upward 0#128 0#128

/-! ### Patterns and the u128 functions -/

/-- R36: the constants are what their definitions say; and `IMPLICIT_BIT << 3` and `IMPLICIT_BIT << 4`, two values that the
spec derives from its table there. -/
def Obligations.ConstantsMatchTheirDefinitions : Prop :=
  exponentBias = 2 ^ 14 - 1 ∧ maxExponent = 2 ^ 15 - 1 ∧ implicitBit.toNat = 2 ^ 112 ∧ quietBit.toNat = 2 ^ 111 ∧
  signBit.toNat = 2 ^ 127 ∧ absMask = signBit - 1#128 ∧ exponentMask = BitVec.ofNat 128 maxExponent <<< 112 ∧
  significandMask = implicitBit - 1#128 ∧ infRep = exponentMask ∧ qnanRep = infRep ||| quietBit ∧
  (implicitBit <<< 3).toNat = 2 ^ 115 ∧ (implicitBit <<< 4).toNat = 2 ^ 116

/-- R37: the classes by their field conditions and, as the spec derives, by their magnitude tests; every pattern is in
exactly one class. -/
def Obligations.ClassesOfPatterns : Prop :=
  ∀ x : Word,
    (isZero x = true ↔ expField x = 0 ∧ sigField x = 0#128) ∧ (isZero x = true ↔ absBits x = 0#128) ∧
    (isDenormal x = true ↔ expField x = 0 ∧ sigField x ≠ 0#128) ∧
    (isDenormal x = true ↔ 0#128 < absBits x ∧ absBits x < implicitBit) ∧
    (isNormal x = true ↔ 1 ≤ expField x ∧ expField x ≤ 32766) ∧
    (isNormal x = true ↔ implicitBit ≤ absBits x ∧ absBits x < infRep) ∧
    (isInfinite x = true ↔ expField x = 32767 ∧ sigField x = 0#128) ∧ (isInfinite x = true ↔ absBits x = infRep) ∧
    (isQuietNaN x = true ↔ expField x = 32767 ∧ x.getLsbD 111 = true) ∧
    (isQuietNaN x = true ↔ infRep < absBits x ∧ x &&& quietBit ≠ 0#128) ∧
    (isSignalingNaN x = true ↔ expField x = 32767 ∧ sigField x ≠ 0#128 ∧ x.getLsbD 111 = false) ∧
    (isSignalingNaN x = true ↔ infRep < absBits x ∧ x &&& quietBit = 0#128) ∧
    [isZero x, isDenormal x, isNormal x, isInfinite x, isQuietNaN x, isSignalingNaN x].count true = 1

/-- R10: `clz128(v) = 127 - floor(log2 v)` for `v > 0`, by the power of two below `v`, and 128 for 0; and the counts of
`IMPLICIT_BIT` and `IMPLICIT_BIT << 3`, which the spec derives there. -/
def Obligations.LeadingZeroCount : Prop :=
  clz128 0#128 = 128 ∧ clz128 implicitBit = 15 ∧ clz128 (implicitBit <<< 3) = 12 ∧
  ∀ v : Word, v ≠ 0#128 → clz128 v ≤ 127 ∧ 2 ^ (127 - clz128 v) ≤ v.toNat ∧ v.toNat < 2 ^ (128 - clz128 v)

/-- R11: `srj` by its three cases, and for every shift `srj(v, n) = (v >> n) | bool(v mod 2^n != 0)`. -/
def Obligations.ShiftRightJam : Prop :=
  ∀ (v : Word) (n : Nat),
    srj v 0 = v ∧
    (1 ≤ n → n ≤ 127 → srj v n = (v >>> n) ||| boolWord (v <<< (128 - n) != 0#128)) ∧
    (128 ≤ n → srj v n = boolWord (v != 0#128)) ∧
    srj v n = (v >>> n) ||| boolWord (v.toNat % 2 ^ n != 0)

/-! ### The special path -/

/-- The exhaustiveness the spec derives in R48 and R55: the special path is entered exactly when some operand is zero,
infinite or a NaN, and it then gives a result in one of its six steps; so the general path is entered exactly when both
operands are normal or denormal. -/
def Obligations.SpecialPathEntry : Prop :=
  ∀ xs ys : Word,
    (specialEntry xs ys = true ↔
      isZero xs = true ∨ isInfinite xs = true ∨ isNaN xs = true ∨
      isZero ys = true ∨ isInfinite ys = true ∨ isNaN ys = true) ∧
    (specialEntry xs ys = true → (specialSteps xs ys).isSome = true) ∧
    (special xs ys = none ↔
      (isNormal xs = true ∨ isDenormal xs = true) ∧ (isNormal ys = true ∨ isDenormal ys = true))

/-- R49: a NaN x is returned quieted, whatever y is, without inexact. -/
def Obligations.FirstNaNWins : Prop :=
  ∀ (i : Instr) (s : State), isNaN (xsOf i) = true →
    exec i s = .next (s.present { result := xsOf i ||| quietBit, nx := false })

/-- R50: a NaN y, where x is none, is returned quieted; for SUB it is `b` with its sign inverted. -/
def Obligations.SecondNaNNext : Prop :=
  ∀ (i : Instr) (s : State), isNaN (xsOf i) = false → isNaN (ysOf i) = true →
    exec i s = .next (s.present { result := ysOf i ||| quietBit, nx := false })

/-- R51: an infinite x gives itself, or the positive quiet NaN where y is the infinity of the other sign. -/
def Obligations.FirstInfinity : Prop :=
  ∀ (i : Instr) (s : State), isInfinite (xsOf i) = true → isNaN (ysOf i) = false →
    exec i s = .next (s.present
      { result := if isInfinite (ysOf i) && signField (xsOf i) != signField (ysOf i) then qnanRep else xsOf i
        nx := false })

/-- R52: an infinite y, where x is finite, is returned unchanged. -/
def Obligations.SecondInfinity : Prop :=
  ∀ (i : Instr) (s : State), isFinite (xsOf i) = true → isInfinite (ysOf i) = true →
    exec i s = .next (s.present { result := ysOf i, nx := false })

/-- R53: a zero x, where y is finite, gives y unchanged, and where y is a zero too the AND of the patterns: -0 when both
are -0 and +0 otherwise, in every mode. -/
def Obligations.FirstZero : Prop :=
  ∀ (i : Instr) (s : State), isZero (xsOf i) = true → isFinite (ysOf i) = true →
    exec i s = .next (s.present
      { result :=
          if isZero (ysOf i) then (if signField (xsOf i) && signField (ysOf i) then signBit else 0#128) else ysOf i
        nx := false })

/-- R54: a zero y, where x is normal or denormal, gives x unchanged. -/
def Obligations.SecondZero : Prop :=
  ∀ (i : Instr) (s : State), (isNormal (xsOf i) || isDenormal (xsOf i)) = true → isZero (ysOf i) = true →
    exec i s = .next (s.present { result := xsOf i, nx := false })

/-- No result is a signaling NaN, which the spec derives in R56. -/
def Obligations.NoSignalingResult : Prop :=
  ∀ (i : Instr) (s : State), ∃ t, exec i s = .next t ∧ isSignalingNaN t.result = false

/-! ### The datapath, on the operands of the general path (R55) -/

/-- The range of the alignment amount, which the spec derives in R62. -/
def Obligations.AlignmentAmountRange : Prop :=
  ∀ xs ys : Word, special xs ys = none → 0 ≤ alignAmount xs ys ∧ alignAmount xs ys ≤ 32877

/-- The ranges of the align shifter's outputs, which the spec derives in R64. -/
def Obligations.AlignShifterRanges : Prop :=
  ∀ xs ys : Word, special xs ys = none →
    2 ^ 115 ≤ (alignShift xs ys).sigA.toNat ∧ (alignShift xs ys).sigA.toNat < 2 ^ 116 ∧
    (alignShift xs ys).sigB ≤ (alignShift xs ys).sigA ∧
    (1 ≤ alignAmount xs ys → (alignShift xs ys).sigB.toNat < 2 ^ 115) ∧
    -111 ≤ (alignShift xs ys).expA ∧ (alignShift xs ys).expA ≤ 32766 ∧
    1 ≤ (alignShift xs ys).sigB.toNat

/-- For every alignment of 116 or more the aligned minor significand is 1, which the spec derives in R63. -/
def Obligations.FarOperandLeavesSticky : Prop :=
  ∀ xs ys : Word, special xs ys = none → 116 ≤ alignAmount xs ys → (alignShift xs ys).sigB = 1#128

/-- R65, R67: the sum and the difference are exact; and their ranges, which the spec derives in R68. -/
def Obligations.SignificandSumExact : Prop :=
  ∀ xs ys : Word, special xs ys = none →
    let al := alignShift xs ys
    let sum := (sigAdd al.sigA al.sigB al.isSub).sum
    (al.isSub = true → sum.toNat + al.sigB.toNat = al.sigA.toNat ∧ sum.toNat < 2 ^ 116) ∧
    (al.isSub = false → (sigAdd al.sigA al.sigB al.isSub).zero = false ∧
      sum.toNat = al.sigA.toNat + al.sigB.toNat ∧ 2 ^ 115 < sum.toNat ∧ sum.toNat < 2 ^ 117)

/-- R66: a difference of 0 is exact cancellation, and the response is then `+0` without inexact, in every rounding mode. It
happens exactly for equal magnitudes of opposite signs, which the spec derives there. -/
def Obligations.ExactCancellation : Prop :=
  ∀ (i : Instr) (s : State), special (xsOf i) (ysOf i) = none →
    let al := alignShift (xsOf i) (ysOf i)
    ((sigAdd al.sigA al.sigB al.isSub).zero = true ↔
      al.isSub = true ∧ (sigAdd al.sigA al.sigB al.isSub).sum = 0#128) ∧
    ((sigAdd al.sigA al.sigB al.isSub).zero = true ↔
      absBits (xsOf i) = absBits (ysOf i) ∧ signField (xsOf i) ≠ signField (ysOf i)) ∧
    (absBits (xsOf i) = absBits (ysOf i) → signField (xsOf i) ≠ signField (ysOf i) →
      exec i s = .next (s.present { result := 0#128, nx := false }))

/-- The normal form after carry and cancellation normalisation, which the spec derives in R71. -/
def Obligations.SumNormalForm : Prop :=
  ∀ xs ys : Word, special xs ys = none →
    let al := alignShift xs ys
    let sa := sigAdd al.sigA al.sigB al.isSub
    sa.zero = false →
      let n := normalizeSum sa.sum al.expA al.isSub
      2 ^ 115 ≤ n.1.toNat ∧ n.1.toNat < 2 ^ 116 ∧ -111 ≤ n.2 ∧ n.2 ≤ 32767

/-- The lemma of R74, which the spec takes from general knowledge, on the path of R73: where the exponent falls to 0 or
below, no nonzero bit is shifted out, the three round bits are 0, and the response has `nx = 0`. -/
def Obligations.DenormalResultExact : Prop :=
  ∀ (rm : RoundingMode) (xs ys : Word), special xs ys = none →
    let al := alignShift xs ys
    let sa := sigAdd al.sigA al.sigB al.isSub
    let n := normalizeSum sa.sum al.expA al.isSub
    sa.zero = false → n.2 ≤ 0 →
      n.1.toNat % 2 ^ (1 - n.2).toNat = 0 ∧ roundBits (renormalize sa.sum al.expA al.isSub).sigN = 0 ∧
      (fadd rm xs ys).nx = false

/-- R72, R83: an exponent of 32767 or more is an overflow; it comes only from the carry of an addition at exponent 32766,
and its response is the infinity of the result's sign with inexact, in every rounding mode. -/
def Obligations.OverflowGivesInfinity : Prop :=
  ∀ (i : Instr) (s : State), special (xsOf i) (ysOf i) = none →
    let al := alignShift (xsOf i) (ysOf i)
    let sa := sigAdd al.sigA al.sigB al.isSub
    sa.zero = false →
      ((renormalize sa.sum al.expA al.isSub).ovf = true ↔ 32767 ≤ (normalizeSum sa.sum al.expA al.isSub).2) ∧
      ((renormalize sa.sum al.expA al.isSub).ovf = true →
        al.isSub = false ∧ al.expA = 32766 ∧ (normalizeSum sa.sum al.expA al.isSub).2 = 32767 ∧
        exec i s = .next (s.present { result := infRep ||| al.signR, nx := true }))

/-- R77 to R80: the increment of each rounding mode, on the packed pattern. -/
def Obligations.RoundingIncrements : Prop :=
  ∀ (sigN : Word) (expN : Int) (signR : Word),
    let rgs := roundBits sigN
    let r := pack sigN expN signR
    (roundUnit sigN expN signR .nearest false).result =
      (if rgs > 4 ∨ (rgs = 4 ∧ r.getLsbD 0 = true) then r + 1#128 else r) ∧
    (roundUnit sigN expN signR .downward false).result = (if signR ≠ 0#128 ∧ rgs ≠ 0 then r + 1#128 else r) ∧
    (roundUnit sigN expN signR .upward false).result = (if signR = 0#128 ∧ rgs ≠ 0 then r + 1#128 else r) ∧
    (roundUnit sigN expN signR .towardZero false).result = r

/-- R82: inexact is `rgs != 0`, whatever the rounding mode, and where the response is presented FPENV.NX records it. -/
def Obligations.InexactIsRoundBits : Prop :=
  ∀ (sigN : Word) (expN : Int) (signR : Word) (rm : RoundingMode),
    (roundUnit sigN expN signR rm false).nx = (sigN.toNat % 8 != 0) ∧
    ∀ s : State, s.cfg.hasFpenv = true →
      fpenvNx (s.present (roundUnit sigN expN signR rm false)).fpenv = (fpenvNx s.fpenv || sigN.toNat % 8 != 0)

/-- What the spec derives in R84: the response of the general path, unless the operands cancel, has the sign `sign_r`, is
no NaN and no zero, and is infinite only by overflow or where the increment carries into the infinity. -/
def Obligations.GeneralResultShape : Prop :=
  ∀ (rm : RoundingMode) (xs ys : Word), special xs ys = none →
    let al := alignShift xs ys
    let sa := sigAdd al.sigA al.sigB al.isSub
    let rn := renormalize sa.sum al.expA al.isSub
    let r := (fadd rm xs ys).result
    sa.zero = false →
      r &&& signBit = al.signR ∧ isNaN r = false ∧ isZero r = false ∧
      (isInfinite r = true → rn.ovf = true ∨ r = pack rn.sigN rn.expN al.signR + 1#128)

/-! ### Correct rounding of the exact result -/

/-- What `91_not_in_source.md` N12 checked by example, with the values of R38: on finite operands a finite result is the
exact sum or difference rounded in the request's mode. -/
def Obligations.FiniteResultIsRoundedExactResult : Prop :=
  ∀ (i : Instr) (s : State), isFinite (xsOf i) = true → isFinite (ysOf i) = true →
    ∃ t, exec i s = .next t ∧ (isFinite t.result = true → isRounded i.rm (exactOf i) t.result)

/-- What R72, R81 and R83 amount to: on finite operands the result is finite or an infinity, and it is an infinity, with
the exact result's sign and with inexact, exactly where the exact result overflows in the mode. -/
def Obligations.OverflowExactlyBeyondLimit : Prop :=
  ∀ (i : Instr) (s : State), isFinite (xsOf i) = true → isFinite (ysOf i) = true →
    ∃ t, exec i s = .next t ∧
      (isFinite t.result = true ∨ isInfinite t.result = true) ∧
      (isInfinite t.result = true ↔ overflowsIn i.rm (exactOf i)) ∧
      (isInfinite t.result = true → t.nx = true ∧ (signField t.result = true ↔ exactOf i < 0))

/-- What R82 amounts to: on finite operands a finite result raises inexact exactly when it is not the exact result. -/
def Obligations.InexactExactlyWhenNotExact : Prop :=
  ∀ (i : Instr) (s : State), isFinite (xsOf i) = true → isFinite (ysOf i) = true →
    ∃ t, exec i s = .next t ∧ (isFinite t.result = true → (t.nx = true ↔ valueOf t.result ≠ exactOf i))

/-! ### Algebraic properties (R101) -/

/-- A property the spec derives in R101: ADD commutes unless both operands are NaNs; two NaNs give different results in
the two orders exactly when their quieted patterns differ. -/
def Obligations.AddCommutes : Prop :=
  ∀ (rm : RoundingMode) (a b : Word) (s : State),
    ((isNaN a && isNaN b) = false → exec (.add rm a b) s = exec (.add rm b a) s) ∧
    ((isNaN a && isNaN b) = true → (fadd rm a b = fadd rm b a ↔ a ||| quietBit = b ||| quietBit))

/-- A property the spec derives in R101: `x + -0` is x for every x that is no NaN; `x + +0` is x but for x = -0, where it
is +0. -/
def Obligations.ZeroIdentities : Prop :=
  ∀ (rm : RoundingMode) (x : Word) (s : State), isNaN x = false →
    exec (.add rm x signBit) s = .next (s.present { result := x, nx := false }) ∧
    exec (.add rm x 0#128) s = .next (s.present { result := if x = signBit then 0#128 else x, nx := false })

/-- A property the spec derives in R101: for every finite x, `x + (-x)` and `x - x` are +0 without inexact, in every mode.
-/
def Obligations.CancellationIsPositiveZero : Prop :=
  ∀ (rm : RoundingMode) (x : Word) (s : State), isFinite x = true →
    exec (.add rm x (negate x)) s = .next (s.present { result := 0#128, nx := false }) ∧
    exec (.sub rm x x) s = .next (s.present { result := 0#128, nx := false })

/-- R46: SUB is ADD of `b ^ SIGN_BIT`, NaNs included. -/
def Obligations.SubIsAddOfNegated : Prop :=
  ∀ (rm : RoundingMode) (a b : Word) (s : State), exec (.sub rm a b) s = exec (.add rm a (b ^^^ signBit)) s

/-- A property the spec derives in R101: negating both operands, neither a NaN, negates the result in the mirrored mode
and keeps inexact, unless the operands are infinities of opposite signs, zeros of opposite signs, or cancel exactly. -/
def Obligations.SignSymmetry : Prop :=
  ∀ (rm : RoundingMode) (a b : Word), isNaN a = false → isNaN b = false →
    ¬(absBits a = absBits b ∧ signField a ≠ signField b) →
    fadd rm (negate a) (negate b) =
      { result := negate (fadd (mirrored rm) a b).result, nx := (fadd (mirrored rm) a b).nx }

/-! ### Completion, frame and flags -/

/-- R19, R22, R23, R45: ADD completes in every state with every operand: it presents the response of FADD, FPENV.NX becomes
`FPENV.NX | nx` where an FPENV exists, and nothing else changes. -/
def Obligations.AddCompletes : Prop :=
  ∀ (rm : RoundingMode) (a b : Word) (s : State),
    exec (.add rm a b) s = .next
      { s with
        outValid := true
        result := (fadd rm a b).result
        nx := (fadd rm a b).nx
        fpenv :=
          if s.cfg.hasFpenv then fpenvOf (fpenvRm s.fpenv) (fpenvNx s.fpenv || (fadd rm a b).nx) else s.fpenv }

/-- R19, R22, R23, R46: SUB completes in every state with every operand, as ADD does with the sign of `b` flipped. -/
def Obligations.SubCompletes : Prop :=
  ∀ (rm : RoundingMode) (a b : Word) (s : State),
    exec (.sub rm a b) s = .next
      { s with
        outValid := true
        result := (fadd rm a (b ^^^ signBit)).result
        nx := (fadd rm a (b ^^^ signBit)).nx
        fpenv :=
          if s.cfg.hasFpenv then
            fpenvOf (fpenvRm s.fpenv) (fpenvNx s.fpenv || (fadd rm a (b ^^^ signBit)).nx)
          else s.fpenv }

/-- R15, R21, R22, R26: the frame of ADD and SUB. Only the output ports and FPENV.NX may change: the parameters, the
pipeline, the delay line, the host's inputs, the cycle count and FPENV.RM do not, and FPENV.NX is set when `nx` is and
otherwise keeps its value. The unit has no memory and no register to state a frame for (R16, R28). -/
def Obligations.ExecFrame : Prop :=
  ∀ (i : Instr) (s t : State), exec i s = .next t →
    t.cfg = s.cfg ∧ t.pipe = s.pipe ∧ t.rmLine = s.rmLine ∧ t.inputs = s.inputs ∧ t.freeCount = s.freeCount ∧
    fpenvRm t.fpenv = fpenvRm s.fpenv ∧
    fpenvNx t.fpenv = (fpenvNx s.fpenv || (s.cfg.hasFpenv && t.nx))

/-- R13: a response is a function of its own request alone: the state it is answered in does not change it. -/
def Obligations.ResponseDependsOnRequestAlone : Prop :=
  ∀ (i : Instr) (s s' : State), ∃ t t', exec i s = .next t ∧ exec i s' = .next t' ∧
    t.outValid = true ∧ t'.outValid = true ∧ t.result = t'.result ∧ t.nx = t'.nx

/-- R22: in every clock cycle of a unit with an FPENV, NX becomes `NX | nx` where a response is presented and keeps its
value otherwise; and, as R20 and R21 say, no step but a host write of RM changes RM, and a host write of RM keeps NX. The
model's choices in it: a host write is a step of its own (log 1), a cycle with `rst = 1` leaves FPENV unchanged (log 8),
and so does a host write where no FPENV exists (log 10). -/
def Obligations.FpenvChangesOnlyAsStated : Prop :=
  ∀ s t : State, step s = .next t →
    ((∀ v, s.nextInput ≠ .writeRm v) → fpenvRm t.fpenv = fpenvRm s.fpenv) ∧
    (∀ v, s.nextInput = .writeRm v → fpenvNx t.fpenv = fpenvNx s.fpenv) ∧
    (∀ p, s.nextInput = .clock p → s.cfg.hasFpenv = true →
      fpenvNx t.fpenv = (fpenvNx s.fpenv || (t.outValid && t.nx)))

/-- R20: FPENV.RM is bits 1:0 and FPENV.NX is bit 2, and a host write of FPENV.RM or FPENV.NX writes that field of an
existing FPENV and nothing else. The model's choices in it: a host write is a step of its own (log 1), and a written 1 sets
NX (log 11), where R20 says only that a written 0 clears it. -/
def Obligations.HostWritesOneField : Prop :=
  (∀ f : BitVec 3, (fpenvRm f).toNat = f.toNat % 4 ∧ fpenvNx f = f.getLsbD 2) ∧
  (∀ (rm : BitVec 2) (nx : Bool), (fpenvOf rm nx).toNat = rm.toNat + if nx then 4 else 0) ∧
  ∀ (s : State) (rest : List Input), s.cfg.hasFpenv = true →
    (∀ v, s.inputs = .writeRm v :: rest →
      step s = .next { s with inputs := rest, fpenv := fpenvOf v (fpenvNx s.fpenv) }) ∧
    (∀ v, s.inputs = .writeNx v :: rest →
      step s = .next { s with inputs := rest, fpenv := fpenvOf (fpenvRm s.fpenv) v })

/-- R23: without an FPENV port `rm` is `0b00`, and no step records anything in it. What a host write does there is the
model's choice (log 10). Port `rm` of a unit with an FPENV is the subject of `PortRmCarriesFpenvRm`. -/
def Obligations.NoFpenvRecordsNothing : Prop :=
  ∀ s t : State, s.cfg.hasFpenv = false → step s = .next t → s.portRm = 0b00#2 ∧ t.fpenv = s.fpenv

/-! ### Steps, cycles and reset -/

/-- R19, R100: a step takes the host's next input; in a clock cycle in which a request leaves the pipeline it runs the
request that the word decodes to, in the state that the clock edge gives; in a clock cycle without one it presents nothing.
The model's choices in it: a step is one clock cycle (log 1), an empty input list is an idle one (log 13), what the delay
line, the free values and the model's own count become (logs 5, 6), and that a cycle with `rst = 1` leaves FPENV unchanged
(log 8). -/
def Obligations.StepRunsDecodedRequest : Prop :=
  ∀ (s : State) (p : Ports), s.nextInput = .clock p →
    (∀ w, s.leaving p = some w →
      step s = exec (decodeRequest w)
        { s with
          inputs := s.inputs.tail
          rmLine := lineShift (fpenvRm s.fpenv) s.rmLine
          pipe := s.pipeAfter p
          outValid := false
          result := Config.freeResult s.freeCount
          nx := Config.freeNx s.freeCount
          freeCount := s.freeCount + 1 }) ∧
    (s.leaving p = none →
      ∃ t, step s = .next t ∧ t.outValid = false ∧ t.fpenv = s.fpenv ∧ t.pipe = s.pipeAfter p ∧
        t.inputs = s.inputs.tail)

/-- The model's convention for placing an instruction (log 12), over R19 and R41: the step after `withFetchWord` runs the
instruction that the table's word decodes to, in the state the clock edge gives. -/
def Obligations.PlacedWordRunsNext : Prop :=
  ∀ (s : State) (nbits w : Nat) (i : Instr), decodeTableWord nbits w = some i → i.wellFormed s.cfg = true →
    ∃ p, (s.withFetchWord nbits w).nextInput = .clock p ∧
      step (s.withFetchWord nbits w) = exec i ((s.withFetchWord nbits w).takeInput.clockEdge p)

/-- R85: no state and no input stops the machine, and every request is answered by a response. -/
def Obligations.EveryStepAnswers : Prop :=
  (∀ s : State, ∃ t, step s = .next t) ∧ ∀ (i : Instr) (s : State), ∃ t, exec i s = .next t ∧ t.outValid = true

/-- R20, R27: the state after reset, for every choice of the parameters: FPENV Nearest with NX clear, every valid bit 0, no
response presented. With `LATENCY = 0` the last is the model's choice (log 22). -/
def Obligations.ResetValues : Prop :=
  ∀ cfg : Config,
    fpenvRm (State.resetFor cfg).fpenv = 0b00#2 ∧ fpenvNx (State.resetFor cfg).fpenv = false ∧
    (State.resetFor cfg).outValid = false ∧ (∀ st ∈ (State.resetFor cfg).pipe, st.valid = false)

/-- The state after reset meets the invariant, for every choice of the parameters. The model's choices in it are those that
`StepKeepsInvariant` names. -/
def Obligations.ResetMeetsInvariant : Prop :=
  (∀ cfg : Config, (State.resetFor cfg).Inv) ∧ core.reset.Inv

/-- From every state that meets the invariant, a step gives a state that meets it, with the same parameters. R25 gives the
number of stages, and R23 that without an FPENV a request is sampled with `rm` at `0b00`. The model's choices in it: the
delay of I16 as a line of so many registers (log 5), the request word in a stage's data (log 7), and that without an FPENV
the field of State stays at 0, under a host write too (log 10). -/
def Obligations.StepKeepsInvariant : Prop :=
  ∀ s t : State, s.Inv → step s = .next t → t.Inv ∧ t.cfg = s.cfg

/-- R27, R94, R95: with `LATENCY > 0` a clock cycle with `rst = 1` presents no response, accepts no request, leaves no
request in flight and does not change FPENV. That FPENV.RM is not reset is the model's reading (log 8). -/
def Obligations.ResetCycleDropsRequests : Prop :=
  ∀ (s : State) (p : Ports), s.cfg.latency ≠ 0 → s.nextInput = .clock p → p.rst = true →
    ∃ t, step s = .next t ∧ t.outValid = false ∧ t.inFlight = [] ∧ t.fpenv = s.fpenv

/-- R94: with `LATENCY = 0`, `rst` has no effect: the step is the same with `rst = 0`. -/
def Obligations.ResetWithoutPipelineHasNoEffect : Prop :=
  ∀ (s : State) (p : Ports) (rest : List Input), s.cfg.latency = 0 → s.inputs = .clock p :: rest →
    step s = step { s with inputs := .clock { p with rst := false } :: rest }

/-- R19, R94, R95: with no request in flight a clock cycle presents a response only in a unit with `LATENCY = 0`, to the
request it accepts; otherwise the accepted request, and it alone, is then in flight. -/
def Obligations.NoResponseBeforeRequest : Prop :=
  ∀ (s : State) (p : Ports), s.Inv → s.inFlight = [] → s.nextInput = .clock p →
    ∃ t, step s = .next t ∧ t.outValid = (decide (s.cfg.latency = 0) && p.inValid) ∧
      t.inFlight = if s.cfg.latency ≠ 0 ∧ s.accepts p = true then [s.sampled p] else []

/-- R19, R97, R99: the response to the request accepted in a cycle is presented `LATENCY` clock cycles later, with the
rounding mode that port `rm` had when it was accepted, whatever the host writes to FPENV and requests in between.
That a host's write falls between two clock cycles is the model's choice (log 1). -/
def Obligations.ResponseAfterLatency : Prop :=
  ∀ (s : State) (p : Ports) (later rest : List Input), s.Inv →
    s.inputs = .clock p :: (later ++ rest) → s.accepts p = true →
    (∀ q, .clock q ∈ later → q.rst = false) → clockCount later = s.cfg.latency → endsInClock later →
    ∃ t, core.run (later.length + 1) s = .next t ∧ t.outValid = true ∧
      ({ result := t.result, nx := t.nx } : Response) =
        answerOf (decodeRequest (requestWord p.op s.portRm p.a p.b))

/-- The transaction-level step that the spec derives in R100: in a clock cycle without reset the host's request, if there is
one, is appended with the value on port `rm`, and where a response is presented it is that to the oldest request in flight,
with FPENV.NX as R100 says. -/
def Obligations.CycleRefinesTransactions : Prop :=
  ∀ (s : State) (p : Ports), s.Inv → s.nextInput = .clock p → s.resetting p = false →
    ∃ t, step s = .next t ∧
      let τ := if p.inValid then s.transactions.append (requestWord p.op s.portRm p.a p.b) else s.transactions
      (t.outValid = false ∧ t.transactions = τ) ∨
      (t.outValid = true ∧
        τ.answer s.cfg.hasFpenv = some ({ result := t.result, nx := t.nx }, t.transactions))

/-- R25, I2: the data registers of invalid stages are never observable: states that differ in them alone stay so, with the
same outputs and the same FPENV. -/
def Obligations.InvalidStagesUnobservable : Prop :=
  ∀ s s' : State, s.agrees s' → ∃ t t', step s = .next t ∧ step s' = .next t' ∧ t.agrees t'

/-! ### Notation and host storage, outside the unit -/

/-- R43: the mnemonic and the mode of a line assemble to CTRL and its operands to `a` and `b`. -/
def Obligations.AssembledLineEncodes : Prop :=
  ∀ (results : List (Nat × Word)) (l : AsmLine) (x y : Word),
    l.a.value results = some x → l.b.value results = some y →
    (l.assemble results).map encode =
      some (requestWord (match l.op with | .add => 0#1 | .sub => 1#1) l.rm.code x y)

/-- R29, R30: a host's aligned store puts byte `i` of the pattern, counted from its least significant byte, at `addr + i` in
little-endian order and at `addr + 15 - i` in big-endian order, and loaded back it gives the pattern; an access that is not
16-byte aligned is refused (log 19). -/
def Obligations.HostImageRoundTrip : Prop :=
  ∀ (o : ByteOrder) (addr : Nat) (v : Word),
    (addr % 16 = 0 → ∃ cells, hostStore o addr v = .ok cells ∧ cells.length = 16 ∧ hostLoad o cells addr = .ok v ∧
      ∀ i < 16,
        cells.lookup (match o with | .little => addr + i | .big => addr + 15 - i) = some (v.extractLsb' (8 * i) 8)) ∧
    (addr % 16 ≠ 0 → hostStore o addr v = .error .misaligned ∧
      ∀ cells, hostLoad o cells addr = .error .misaligned)

/-! ### Port `rm` -/

/-- R21, R97, and the delay of I16: where an FPENV exists, port `rm` is FPENV.RM when the delay is 0, and otherwise the
FPENV.RM of as many clock cycles before, whatever the host writes and requests in between. That the delay is the same for
every write, and that the line holds older values of FPENV.RM, is the model's choice (log 5), as are what a cycle with
`rst = 1` leaves unchanged (log 8) and where a host's write falls (log 1). -/
def Obligations.PortRmCarriesFpenvRm : Prop :=
  ∀ s : State, s.Inv → s.cfg.hasFpenv = true →
    (s.cfg.rmDelay = 0 → s.portRm = fpenvRm s.fpenv) ∧
    (∀ (p : Ports) (later rest : List Input),
      s.inputs = .clock p :: (later ++ rest) → clockCount later + 1 = s.cfg.rmDelay →
      ∃ t : State, core.run (later.length + 1) s = .next t ∧ t.portRm = fpenvRm s.fpenv)
end

