-- ==== Sys2Proof/Laws/Decode.lean ====
section
/-! SUPPORT. The fields of a request word (R41) and the codes of the rounding modes (R40). -/

namespace Sys2Proof

@[simp] theorem RoundingMode.ofCode_code (rm : RoundingMode) : RoundingMode.ofCode rm.code = rm := by
  cases rm <;> rfl

section fields

variable (op : BitVec 1) (rm : BitVec 2) (a b : Word)

/-- Every bit of a request word is a bit of one field (R41). -/
theorem requestWord_getLsbD (i : Nat) :
    (requestWord op rm a b).getLsbD i =
      if i < 128 then b.getLsbD i else if i < 256 then a.getLsbD (i - 128)
      else if i < 258 then rm.getLsbD (i - 256) else op.getLsbD (i - 258) := by
  have ha : i - 128 < 128 ↔ i < 256 := by omega
  have hr : i - (128 + 128) < 2 ↔ i < 258 := by omega
  simp only [requestWord, BitVec.getLsbD_append, Nat.sub_sub, ha, hr]

@[simp] theorem requestOp_requestWord : requestOp (requestWord op rm a b) = op := by
  apply BitVec.eq_of_getLsbD_eq
  intro i h
  rw [requestOp, BitVec.getLsbD_extractLsb', requestWord_getLsbD, if_neg (by omega), if_neg (by omega),
    if_neg (by omega), Nat.add_sub_cancel_left, decide_eq_true h, Bool.true_and]

@[simp] theorem requestRm_requestWord : requestRm (requestWord op rm a b) = rm := by
  apply BitVec.eq_of_getLsbD_eq
  intro i h
  rw [requestRm, BitVec.getLsbD_extractLsb', requestWord_getLsbD, if_neg (by omega), if_neg (by omega),
    if_pos (by omega), Nat.add_sub_cancel_left, decide_eq_true h, Bool.true_and]

@[simp] theorem requestA_requestWord : requestA (requestWord op rm a b) = a := by
  apply BitVec.eq_of_getLsbD_eq
  intro i h
  rw [requestA, BitVec.getLsbD_extractLsb', requestWord_getLsbD, if_neg (by omega), if_pos (by omega),
    Nat.add_sub_cancel_left, decide_eq_true h, Bool.true_and]

@[simp] theorem requestB_requestWord : requestB (requestWord op rm a b) = b := by
  apply BitVec.eq_of_getLsbD_eq
  intro i h
  rw [requestB, BitVec.getLsbD_extractLsb', requestWord_getLsbD, if_pos (by omega), Nat.zero_add,
    decide_eq_true h, Bool.true_and]

end fields

/-! ### Numbers and words of the opcode table -/

theorem decode_of_lt {n : Nat} (h : n < 2 ^ 259) : decode n = .ok (decodeRequest (BitVec.ofNat 259 n)) := if_pos h

theorem decode_of_not_lt {n : Nat} (h : ¬n < 2 ^ 259) : decode n = .error .widerThanRequest := if_neg h

theorem decodeRequest_of_decode_ok {n : Nat} {i : Instr} (h : decode n = .ok i) :
    decodeRequest (BitVec.ofNat 259 n) = i := by
  by_cases hn : n < 2 ^ 259
  · rw [decode_of_lt hn] at h
    exact Except.ok.inj h
  · rw [decode_of_not_lt hn] at h
    cases h

/-- A word of the opcode table that denotes an instruction is, rearranged, a request word that does (R41, log 12). -/
theorem decodeRequest_of_decodeTableWord {nbits w : Nat} {i : Instr} (h : decodeTableWord nbits w = some i) :
    decodeRequest (BitVec.ofNat 259 (tableRequestNumber nbits w)) = i := by
  apply decodeRequest_of_decode_ok
  unfold decodeTableWord at h
  generalize decode (tableRequestNumber nbits w) = d at h ⊢
  cases d with
  | error _ => cases h
  | ok _ => rw [Option.some.inj h]

end Sys2Proof
end

