-- ==== Sys2Proof/Laws/Operands.lean ====
section
/-! SUPPORT. The operand functions of `Machine/Operands.lean` as numbers: each field of a pattern by division and remainder
(R35), the magnitude pattern and the sign flip. Proofs about the datapath cite these and go on with `omega`. -/

namespace Sys2Proof.Machine

@[simp] theorem implicitBit_toNat : implicitBit.toNat = 2 ^ 112 := rfl

@[simp] theorem quietBit_toNat : quietBit.toNat = 2 ^ 111 := rfl

@[simp] theorem signBit_toNat : signBit.toNat = 2 ^ 127 := rfl

@[simp] theorem infRep_toNat : infRep.toNat = 32767 * 2 ^ 112 := rfl

@[simp] theorem qnanRep_toNat : qnanRep.toNat = 32767 * 2 ^ 112 + 2 ^ 111 := rfl

theorem absBits_toNat (x : Word) : (absBits x).toNat = x.toNat % 2 ^ 127 := by
  rw [absBits, BitVec.toNat_and]
  exact Nat.and_two_pow_sub_one_eq_mod _ 127

theorem sigField_toNat (x : Word) : (sigField x).toNat = x.toNat % 2 ^ 112 := by
  rw [sigField, BitVec.toNat_and]
  exact Nat.and_two_pow_sub_one_eq_mod _ 112

theorem expField_eq (x : Word) : expField x = x.toNat / 2 ^ 112 % 2 ^ 15 := by
  simp [expField, BitVec.extractLsb'_toNat, Nat.shiftRight_eq_div_pow]

theorem signField_eq (x : Word) : signField x = decide (2 ^ 127 ≤ x.toNat) := by
  have h := x.isLt
  rw [signField, ← BitVec.testBit_toNat, Nat.testBit_eq_decide_div_mod_eq]
  congr 1
  apply propext
  omega

/-- The magnitude pattern from the two fields under it (R35). -/
theorem absBits_eq_fields (x : Word) : (absBits x).toNat = expField x * 2 ^ 112 + (sigField x).toNat := by
  rw [absBits_toNat, expField_eq, sigField_toNat]
  omega

theorem absMask_getLsbD : ∀ i < 128, absMask.getLsbD i = decide (i < 127) := by decide

theorem signBit_getLsbD : ∀ i < 128, signBit.getLsbD i = decide (i = 127) := by decide

theorem negate_getLsbD (x : Word) (i : Nat) : (negate x).getLsbD i = (x.getLsbD i != decide (i = 127)) := by
  by_cases h : i < 128
  · rw [negate, BitVec.getLsbD_xor, signBit_getLsbD i h]
  · have h' : i ≠ 127 := by omega
    simp [negate, BitVec.getLsbD_of_ge _ _ (Nat.le_of_not_lt h), h']

@[simp] theorem absBits_negate (x : Word) : absBits (negate x) = absBits x := by
  apply BitVec.eq_of_getLsbD_eq
  intro i h
  rw [absBits, absBits, BitVec.getLsbD_and, BitVec.getLsbD_and, negate_getLsbD, absMask_getLsbD i h]
  by_cases h' : i = 127 <;> simp [h']

@[simp] theorem signField_negate (x : Word) : signField (negate x) = !signField x := by
  rw [signField, signField, negate_getLsbD]
  simp

theorem negate_toNat (x : Word) :
    (negate x).toNat = if 2 ^ 127 ≤ x.toNat then x.toNat - 2 ^ 127 else x.toNat + 2 ^ 127 := by
  have habs := congrArg BitVec.toNat (absBits_negate x)
  have hsign := signField_negate x
  rw [absBits_toNat, absBits_toNat] at habs
  rw [signField_eq, signField_eq] at hsign
  have hx := x.isLt
  have hn := (negate x).isLt
  by_cases h : 2 ^ 127 ≤ x.toNat
  · have hlow : ¬2 ^ 127 ≤ (negate x).toNat := fun h' => by
      rw [decide_eq_true h, decide_eq_true h'] at hsign
      cases hsign
    rw [if_pos h]
    omega
  · have hhigh : 2 ^ 127 ≤ (negate x).toNat := Classical.byContradiction fun h' => by
      rw [decide_eq_false h, decide_eq_false h'] at hsign
      cases hsign
    rw [if_neg h]
    omega

@[simp] theorem expField_negate (x : Word) : expField (negate x) = expField x := by
  rw [expField_eq, expField_eq, negate_toNat]
  split <;> omega

@[simp] theorem sigField_negate (x : Word) : sigField (negate x) = sigField x := by
  apply BitVec.eq_of_toNat_eq
  rw [sigField_toNat, sigField_toNat, negate_toNat]
  split <;> omega

@[simp] theorem negate_negate (x : Word) : negate (negate x) = x := by
  simp [negate]

@[simp] theorem isNaN_negate (x : Word) : isNaN (negate x) = isNaN x := by
  simp [isNaN, isQuietNaN, isSignalingNaN]

@[simp] theorem isFinite_negate (x : Word) : isFinite (negate x) = isFinite x := by
  simp [isFinite, isZero, isDenormal, isNormal]

theorem srj_zero (v : Word) : srj v 0 = v := rfl

/-- A shift by the whole width or more leaves the sticky bit alone (R11). -/
theorem srj_of_ge (v : Word) (n : Nat) (h : 128 ≤ n) : srj v n = boolWord (v != 0#128) := by
  rw [srj, if_neg (by omega), if_neg (by omega)]

theorem boolWord_toNat (c : Bool) : (boolWord c).toNat = if c then 1 else 0 := by cases c <;> rfl

end Sys2Proof.Machine
end

