-- ==== Sys2Proof/Laws/State.lean ====
section
/-! SUPPORT. One lemma for each field of State under each update of `Machine/Ops.lean`, true by unfolding, so that no later
proof unfolds a record update. -/

namespace Sys2Proof.Machine

section takeInput

variable (s : State)

@[simp] theorem State.takeInput_cfg : s.takeInput.cfg = s.cfg := rfl

@[simp] theorem State.takeInput_fpenv : s.takeInput.fpenv = s.fpenv := rfl

@[simp] theorem State.takeInput_rmLine : s.takeInput.rmLine = s.rmLine := rfl

@[simp] theorem State.takeInput_pipe : s.takeInput.pipe = s.pipe := rfl

@[simp] theorem State.takeInput_outValid : s.takeInput.outValid = s.outValid := rfl

@[simp] theorem State.takeInput_result : s.takeInput.result = s.result := rfl

@[simp] theorem State.takeInput_nx : s.takeInput.nx = s.nx := rfl

@[simp] theorem State.takeInput_inputs : s.takeInput.inputs = s.inputs.tail := rfl

@[simp] theorem State.takeInput_freeCount : s.takeInput.freeCount = s.freeCount := rfl

end takeInput

section clockEdge

variable (s : State) (p : Ports)

@[simp] theorem State.clockEdge_cfg : (s.clockEdge p).cfg = s.cfg := rfl

@[simp] theorem State.clockEdge_fpenv : (s.clockEdge p).fpenv = s.fpenv := rfl

@[simp] theorem State.clockEdge_rmLine : (s.clockEdge p).rmLine = lineShift (fpenvRm s.fpenv) s.rmLine := rfl

@[simp] theorem State.clockEdge_pipe : (s.clockEdge p).pipe = s.pipeAfter p := rfl

@[simp] theorem State.clockEdge_outValid : (s.clockEdge p).outValid = false := rfl

@[simp] theorem State.clockEdge_result : (s.clockEdge p).result = Config.freeResult s.freeCount := rfl

@[simp] theorem State.clockEdge_nx : (s.clockEdge p).nx = Config.freeNx s.freeCount := rfl

@[simp] theorem State.clockEdge_inputs : (s.clockEdge p).inputs = s.inputs := rfl

@[simp] theorem State.clockEdge_freeCount : (s.clockEdge p).freeCount = s.freeCount + 1 := rfl

end clockEdge

section present

variable (s : State) (r : Response)

@[simp] theorem State.present_cfg : (s.present r).cfg = s.cfg := rfl

@[simp] theorem State.present_fpenv : (s.present r).fpenv = raiseInexact s.cfg.hasFpenv r.nx s.fpenv := rfl

@[simp] theorem State.present_rmLine : (s.present r).rmLine = s.rmLine := rfl

@[simp] theorem State.present_pipe : (s.present r).pipe = s.pipe := rfl

@[simp] theorem State.present_outValid : (s.present r).outValid = true := rfl

@[simp] theorem State.present_result : (s.present r).result = r.result := rfl

@[simp] theorem State.present_nx : (s.present r).nx = r.nx := rfl

@[simp] theorem State.present_inputs : (s.present r).inputs = s.inputs := rfl

@[simp] theorem State.present_freeCount : (s.present r).freeCount = s.freeCount := rfl

end present

section hostWriteRm

variable (s : State) (v : BitVec 2)

@[simp] theorem State.hostWriteRm_cfg : (s.hostWriteRm v).cfg = s.cfg := rfl

@[simp] theorem State.hostWriteRm_fpenv :
    (s.hostWriteRm v).fpenv = if s.cfg.hasFpenv then setFpenvRm s.fpenv v else s.fpenv := rfl

@[simp] theorem State.hostWriteRm_rmLine : (s.hostWriteRm v).rmLine = s.rmLine := rfl

@[simp] theorem State.hostWriteRm_pipe : (s.hostWriteRm v).pipe = s.pipe := rfl

@[simp] theorem State.hostWriteRm_outValid : (s.hostWriteRm v).outValid = s.outValid := rfl

@[simp] theorem State.hostWriteRm_result : (s.hostWriteRm v).result = s.result := rfl

@[simp] theorem State.hostWriteRm_nx : (s.hostWriteRm v).nx = s.nx := rfl

@[simp] theorem State.hostWriteRm_inputs : (s.hostWriteRm v).inputs = s.inputs := rfl

@[simp] theorem State.hostWriteRm_freeCount : (s.hostWriteRm v).freeCount = s.freeCount := rfl

end hostWriteRm

section hostWriteNx

variable (s : State) (v : Bool)

@[simp] theorem State.hostWriteNx_cfg : (s.hostWriteNx v).cfg = s.cfg := rfl

@[simp] theorem State.hostWriteNx_fpenv :
    (s.hostWriteNx v).fpenv = if s.cfg.hasFpenv then setFpenvNx s.fpenv v else s.fpenv := rfl

@[simp] theorem State.hostWriteNx_rmLine : (s.hostWriteNx v).rmLine = s.rmLine := rfl

@[simp] theorem State.hostWriteNx_pipe : (s.hostWriteNx v).pipe = s.pipe := rfl

@[simp] theorem State.hostWriteNx_outValid : (s.hostWriteNx v).outValid = s.outValid := rfl

@[simp] theorem State.hostWriteNx_result : (s.hostWriteNx v).result = s.result := rfl

@[simp] theorem State.hostWriteNx_nx : (s.hostWriteNx v).nx = s.nx := rfl

@[simp] theorem State.hostWriteNx_inputs : (s.hostWriteNx v).inputs = s.inputs := rfl

@[simp] theorem State.hostWriteNx_freeCount : (s.hostWriteNx v).freeCount = s.freeCount := rfl

end hostWriteNx

end Sys2Proof.Machine
end

