-- ==== Sys2Proof/Laws/Ops.lean ====
section
/-! SUPPORT. What the shared operations do, said once: FPENV's fields (R20 to R22), lines of registers, the stages after a
clock edge (R25, R94), what leaves the pipeline (R19). -/

namespace Sys2Proof.Machine

/-! ### FPENV -/

@[simp] theorem fpenvRm_fpenvOf (rm : BitVec 2) (nx : Bool) : fpenvRm (fpenvOf rm nx) = rm := by
  revert rm nx
  decide

@[simp] theorem fpenvNx_fpenvOf (rm : BitVec 2) (nx : Bool) : fpenvNx (fpenvOf rm nx) = nx := by
  revert rm nx
  decide

@[simp] theorem fpenvOf_fields (f : BitVec 3) : fpenvOf (fpenvRm f) (fpenvNx f) = f := by
  revert f
  decide

@[simp] theorem fpenvRm_setFpenvRm (f : BitVec 3) (rm : BitVec 2) : fpenvRm (setFpenvRm f rm) = rm := by
  simp [setFpenvRm]

@[simp] theorem fpenvNx_setFpenvRm (f : BitVec 3) (rm : BitVec 2) : fpenvNx (setFpenvRm f rm) = fpenvNx f := by
  simp [setFpenvRm]

@[simp] theorem fpenvRm_setFpenvNx (f : BitVec 3) (nx : Bool) : fpenvRm (setFpenvNx f nx) = fpenvRm f := by
  simp [setFpenvNx]

@[simp] theorem fpenvNx_setFpenvNx (f : BitVec 3) (nx : Bool) : fpenvNx (setFpenvNx f nx) = nx := by
  simp [setFpenvNx]

/-- Recording inexact keeps RM and sets NX when there is an FPENV and `nx = 1` (R22, R23). -/
@[simp] theorem fpenvRm_raiseInexact (has nx : Bool) (f : BitVec 3) :
    fpenvRm (raiseInexact has nx f) = fpenvRm f := by
  cases has <;> simp [raiseInexact]

@[simp] theorem fpenvNx_raiseInexact (has nx : Bool) (f : BitVec 3) :
    fpenvNx (raiseInexact has nx f) = (fpenvNx f || (has && nx)) := by
  cases has <;> simp [raiseInexact]

@[simp] theorem raiseInexact_without (nx : Bool) (f : BitVec 3) : raiseInexact false nx f = f := rfl

/-! ### Lines of registers -/

section lines

variable {α : Type}

@[simp] theorem lineOut_nil (x : α) : lineOut x [] = x := rfl

@[simp] theorem lineOut_cons (x y : α) (l : List α) : lineOut x (y :: l) = lineOut y l := by
  simp [lineOut]

@[simp] theorem lineShift_nil (x : α) : lineShift x [] = [] := rfl

@[simp] theorem lineShift_cons (x y : α) (l : List α) : lineShift x (y :: l) = x :: lineShift y l := rfl

@[simp] theorem lineShift_length (x : α) (l : List α) : (lineShift x l).length = l.length := by
  simp [lineShift]

/-- Nothing is lost or reordered: what entered and what stood in the line is what stands in it now and what left. -/
theorem lineShift_append_lineOut (x : α) (l : List α) : lineShift x l ++ [lineOut x l] = x :: l :=
  List.dropLast_append_getLast (List.cons_ne_nil x l)

/-- What enters a line stands in its first register after the shift. -/
theorem lineShift_getElem?_zero (x : α) {l : List α} (h : 0 < l.length) : (lineShift x l)[0]? = some x := by
  cases l with
  | nil => cases h
  | cons y ys => rfl

/-- What stands in a register of a line stands in the next one after the shift. -/
theorem lineShift_getElem?_succ (x : α) (l : List α) (j : Nat) (h : j + 1 < l.length) :
    (lineShift x l)[j + 1]? = l[j]? := by
  rw [lineShift, List.getElem?_dropLast, if_pos (by simp; omega), List.getElem?_cons_succ]

/-- What stands in the last register of a line is what leaves it. -/
theorem lineOut_of_getElem? (x : α) {l : List α} {y : α} (h : l[l.length - 1]? = some y) : lineOut x l = y := by
  rw [← List.getLast?_eq_getElem?] at h
  cases l with
  | nil => cases h
  | cons z zs =>
    rw [List.getLast?_eq_some_getLast (List.cons_ne_nil z zs)] at h
    rw [lineOut, List.getLast_cons (List.cons_ne_nil z zs)]
    exact Option.some.inj h

theorem mem_lineShift {x y : α} {l : List α} (h : y ∈ lineShift x l) : y = x ∨ y ∈ l :=
  List.mem_cons.mp (List.mem_of_mem_dropLast h)

@[simp] theorem setLast_length (x : α) : ∀ l : List α, (setLast x l).length = l.length
  | [] => rfl
  | [_] => rfl
  | y :: z :: ys => by simp [setLast, setLast_length x (z :: ys)]

/-- The entry placed last is the next to leave. -/
theorem lineOut_setLast (x y : α) : ∀ l : List α, l ≠ [] → lineOut y (setLast x l) = x
  | [], h => absurd rfl h
  | [_], _ => by simp [setLast]
  | z :: w :: ws, _ => by
    rw [setLast, lineOut_cons]
    exact lineOut_setLast x z (w :: ws) (List.cons_ne_nil w ws)

end lines

/-! ### Port `rm` -/

theorem State.portRm_with {s : State} (h : s.cfg.hasFpenv = true) : s.portRm = lineOut (fpenvRm s.fpenv) s.rmLine :=
  if_pos h

theorem State.portRm_without {s : State} (h : s.cfg.hasFpenv = false) : s.portRm = 0b00#2 := by
  rw [State.portRm, h, if_neg Bool.false_ne_true]

/-! ### Stages -/

@[simp] theorem forgetInvalid_length (cycle : Nat) (l : List Stage) :
    ∀ k, (forgetInvalid cycle k l).length = l.length := by
  induction l with
  | nil => intro k; rfl
  | cons st rest ih => intro k; simp [forgetInvalid, ih]

/-- A valid stage keeps its place and its data. -/
theorem forgetInvalid_getElem? {cycle : Nat} {st : Stage} (hv : st.valid = true) (l : List Stage) :
    ∀ k j : Nat, l[j]? = some st → (forgetInvalid cycle k l)[j]? = some st := by
  induction l with
  | nil => intro k j h; cases h
  | cons x rest ih =>
    intro k j h
    cases j with
    | zero =>
      cases h
      simp [forgetInvalid, hv]
    | succ j => exact ih (k + 1) j h

/-- A stage that is valid after the clock edge is one of the stages that entered it, unchanged. -/
theorem mem_of_mem_forgetInvalid {cycle : Nat} {st : Stage} (hv : st.valid = true) (l : List Stage) :
    ∀ k, st ∈ forgetInvalid cycle k l → st ∈ l := by
  induction l with
  | nil => intro k h; simp [forgetInvalid] at h
  | cons x rest ih =>
    intro k h
    rw [forgetInvalid, List.mem_cons] at h
    rcases h with h | h
    · by_cases hx : x.valid = true
      · rw [if_pos hx] at h
        simp [h]
      · rw [if_neg hx] at h
        rw [h] at hv
        simp at hv
    · exact List.mem_cons_of_mem _ (ih _ h)

/-- Forgetting the data of invalid stages keeps the valid ones and their order. -/
theorem filter_valid_forgetInvalid (cycle : Nat) (l : List Stage) :
    ∀ k, (forgetInvalid cycle k l).filter (·.valid) = l.filter (·.valid) := by
  induction l with
  | nil => intro k; rfl
  | cons x rest ih =>
    intro k
    by_cases hx : x.valid = true <;> simp [forgetInvalid, hx, ih]

@[simp] theorem clearValid_length (l : List Stage) : (clearValid l).length = l.length := by simp [clearValid]

@[simp] theorem filter_valid_clearValid (l : List Stage) : (clearValid l).filter (·.valid) = [] := by
  simp [clearValid]

@[simp] theorem State.pipeAfter_length (s : State) (p : Ports) : (s.pipeAfter p).length = s.pipe.length := by
  rw [State.pipeAfter, forgetInvalid_length]
  split <;> simp

/-- What a clock edge leaves valid in the pipeline (R19, R94). -/
theorem State.filter_valid_pipeAfter (s : State) (p : Ports) :
    (s.pipeAfter p).filter (·.valid) =
      if s.resetting p then [] else (lineShift (s.entering p) s.pipe).filter (·.valid) := by
  rw [State.pipeAfter, filter_valid_forgetInvalid]
  split <;> simp

/-- A request leaves the pipeline exactly when the last stage, or the port, holds one and reset does not act. -/
theorem State.leaving_eq_some_iff (s : State) (p : Ports) (w : BitVec 259) :
    s.leaving p = some w ↔
      lineOut (s.entering p) s.pipe = { valid := true, data := w } ∧ s.resetting p = false := by
  rw [State.leaving]
  rcases lineOut (s.entering p) s.pipe with ⟨v, d⟩
  cases v <;> cases s.resetting p <;> simp

theorem State.leaving_eq_none_iff (s : State) (p : Ports) :
    s.leaving p = none ↔ (lineOut (s.entering p) s.pipe).valid = false ∨ s.resetting p = true := by
  rw [State.leaving]
  rcases lineOut (s.entering p) s.pipe with ⟨v, d⟩
  cases v <;> cases s.resetting p <;> simp

end Sys2Proof.Machine
end

