-- ==== Sys2Proof/Laws/PerInstr.lean ====
section
/-! SUPPORT. A property of every instruction as syntax, one lemma for each constructor. -/

/-- The rounding mode of an instruction stands in its request word as its code (R40, R41). -/
def Sys2Proof.Laws.ModeField.Statement (i : Sys2Proof.Instr) : Prop :=
  Sys2Proof.requestRm (Sys2Proof.encode i) = i.rm.code

theorem Sys2Proof.Laws.ModeField.add (rm : Sys2Proof.RoundingMode) (a b : Sys2Proof.Word) :
    Sys2Proof.Laws.ModeField.Statement (.add rm a b) :=
  Sys2Proof.requestRm_requestWord _ _ a b

theorem Sys2Proof.Laws.ModeField.sub (rm : Sys2Proof.RoundingMode) (a b : Sys2Proof.Word) :
    Sys2Proof.Laws.ModeField.Statement (.sub rm a b) :=
  Sys2Proof.requestRm_requestWord _ _ a b
end

