-- ==== Sys2Proof/Laws/Step.lean ====
section
/-! SUPPORT. What an instruction and a step can do, said once. Later proofs take these cases apart and do not unfold `exec`
or `step`. -/

namespace Sys2Proof.Machine

/-- Every instruction presents its answer. -/
theorem exec_eq_present (i : Instr) (s : State) : exec i s = .next (s.present (answerOf i)) := by
  cases i <;> rfl

/-- The four things a step can do: a host write of RM, a host write of NX, a clock cycle with a response, a clock cycle
without one. -/
theorem step_cases {s t : State} (h : step s = .next t) :
    (∃ v, s.nextInput = .writeRm v ∧ t = s.takeInput.hostWriteRm v) ∨
    (∃ v, s.nextInput = .writeNx v ∧ t = s.takeInput.hostWriteNx v) ∨
    (∃ p w, s.nextInput = .clock p ∧ s.leaving p = some w ∧
      t = (s.takeInput.clockEdge p).present (answerOf (decodeRequest w))) ∨
    (∃ p, s.nextInput = .clock p ∧ s.leaving p = none ∧ t = s.takeInput.clockEdge p) := by
  unfold step at h
  split at h
  next v hv =>
    cases h
    exact .inl ⟨v, hv, rfl⟩
  next v hv =>
    cases h
    exact .inr (.inl ⟨v, hv, rfl⟩)
  next p hp =>
    split at h
    next w hw =>
      rw [exec_eq_present] at h
      cases h
      exact .inr (.inr (.inl ⟨p, w, hp, hw, rfl⟩))
    next hw =>
      cases h
      exact .inr (.inr (.inr ⟨p, hp, hw, rfl⟩))

/-- A run of a machine goes on from the state its first step answers. -/
theorem run_succ (M : Host.Core) {s t : M.State} (h : M.step s = .next t) (k : Nat) : M.run (k + 1) s = M.run k t := by
  rw [Host.Core.run, h]

theorem core_run_zero (s : State) : core.run 0 s = .next s := rfl

theorem core_run_succ {s t : State} (h : step s = .next t) (k : Nat) : core.run (k + 1) s = core.run k t :=
  run_succ core h k

end Sys2Proof.Machine
end

