-- ==== Sys2Proof/Tests/Slice0.lean ====
section
/-! SUPPORT. The model's own tests. Expected results are the spec's: words written out from R39 to R41, and rows of
`95_test_vectors.md`, named by their ids. The second part shows, for each obligation with hypotheses, values that meet all
of them. -/

namespace Sys2Proof.Tests

open Sys2Proof.Machine

/-! ### Values and states -/

def one : Word := 0x3FFF0000000000000000000000000000#128
def two : Word := 0x40000000000000000000000000000000#128
def three : Word := 0x40008000000000000000000000000000#128
def minusOne : Word := 0xBFFF0000000000000000000000000000#128
/-- `2^-113`, half a unit in the last place of 1.0. -/
def halfUlp : Word := 0x3F8E0000000000000000000000000000#128
def largest : Word := 0x7FFEFFFFFFFFFFFFFFFFFFFFFFFFFFFF#128
def smallestNormal : Word := 0x00010000000000000000000000000000#128
def smallestDenormal : Word := 0x00000000000000000000000000000001#128
def signaling : Word := 0x7FFF0000000000000000000000000001#128
def minusInf : Word := 0xFFFF0000000000000000000000000000#128

/-- A pipelined unit: two stages, and one cycle from FPENV.RM to port `rm`. -/
def deep : Config := { Config.base with latency := 2, rmDelay := 1 }

/-- A combinational unit without an FPENV. -/
def bare : Config := { Config.base with hasFpenv := false }

/-- The state after reset, with what the host does next. -/
def started (cfg : Config) (inputs : List Input) : State := { State.resetFor cfg with inputs := inputs }

/-- A clock cycle with a request. -/
def asks (op : BitVec 1) (a b : Word) : Ports := { rst := false, inValid := true, op := op, a := a, b := b }

/-- The state a step or an instruction answers with. -/
def nextOf : Host.Outcome State Fault Refusal → Option State
  | .next t => some t
  | _ => none

/-- The response, and FPENV, that a step or an instruction leaves. -/
def shown (o : Host.Outcome State Fault Refusal) : Option (Word × Bool × BitVec 3) :=
  (nextOf o).map fun t => (t.result, t.nx, t.fpenv)

/-! ### Well-formedness -/

theorem test_wellFormed_refuses_add_mode_without_fpenv : Instr.wellFormed bare (.add .upward one two) = false := by decide

theorem test_wellFormed_refuses_sub_mode_without_fpenv : Instr.wellFormed bare (.sub .towardZero one two) = false := by
  decide

theorem test_wellFormed_accepts_nearest_without_fpenv : Instr.wellFormed bare (.sub .nearest one two) = true := by decide

/-! ### Decoding, on words written out from R39 to R41 -/

/-- CTRL `0b001` (ADD RDN), then the 32 digits of `a`, then those of `b`. -/
theorem test_decode_add :
    decodeRequest 0x13FFF000000000000000000000000000040008000000000000000000000000001#259 =
      .add .downward 0x3FFF0000000000000000000000000000#128 0x40008000000000000000000000000001#128 := by decide

/-- CTRL `0b111` (SUB RTZ), with the highest and the lowest bit of each operand set. -/
theorem test_decode_sub :
    decodeRequest 0x78000000000000000000000000000000180000000000000000000000000000001#259 =
      .sub .towardZero 0x80000000000000000000000000000001#128 0x80000000000000000000000000000001#128 := by decide

theorem test_decode_refuses_wider : decode (2 ^ 259) = .error .widerThanRequest := by decide

theorem test_decode_widest : (decode (2 ^ 259 - 1)).toOption = some (.sub .towardZero (-1#128) (-1#128)) := by decide

/-- The opcode table's 3-bit words: `0b010` is ADD RUP, `0b101` is SUB RDN, of two zeros. -/
theorem test_decodeTableWord :
    decodeTableWord 8 0b010 = some (.add .upward 0#128 0#128) ∧
    decodeTableWord 8 0b101 = some (.sub .downward 0#128 0#128) := by decide

/-! ### Operations, one step each -/

/-- V-T35: `1 + 2`. -/
theorem test_add : shown (exec (.add .nearest one two) State.reset) = some (three, false, 0b000#3) := by decide

/-- V-R9: a tie with the retained low bit 1 is incremented, and inexact is recorded. -/
theorem test_add_tie_to_even :
    shown (exec (.add .nearest (one + 1#128) halfUlp) State.reset) = some (one + 2#128, true, 0b100#3) := by decide

/-- V-T34: `2 - 3`. -/
theorem test_sub : shown (exec (.sub .nearest two three) State.reset) = some (minusOne, false, 0b000#3) := by decide

/-- V-T29: a signaling NaN `b` comes back quieted, its sign inverted. -/
theorem test_sub_signaling :
    shown (exec (.sub .nearest one signaling) State.reset) =
      some (0xFFFF8000000000000000000000000001#128, false, 0b000#3) := by decide

/-- The first step after reset runs a placed word: SUB RDN of two zeros gives `+0` (V-T27, R53). -/
theorem test_step_placed :
    shown (step (State.reset.withFetchWord 8 0b101)) = some (0#128, false, 0b001#3) := by decide

/-- R27, R94: reset empties the pipeline. -/
theorem test_reset_values : State.reset.outValid = false ∧ State.reset.fpenv = 0b000#3 ∧ State.reset.inputs = [] := by
  decide

theorem witness_resetFor_inv (cfg : Config) : (State.resetFor cfg).Inv where
  pipe_length := List.length_replicate
  rmLine_length := List.length_replicate
  noFpenv_fpenv := fun _ => rfl
  noFpenv_nearest := fun _ st hst hv => by
    rw [(List.mem_replicate.mp hst).2] at hv
    cases hv

theorem witness_started_inv (cfg : Config) (inputs : List Input) : (started cfg inputs).Inv :=
  let h := witness_resetFor_inv cfg
  ⟨h.pipe_length, h.rmLine_length, h.noFpenv_fpenv, h.noFpenv_nearest⟩

/-! ### Values that meet the hypotheses of the obligations -/

theorem witness_NoRequestIsIllegal : (0 : Nat) < 2 ^ 259 ∧ 2 ^ 259 - 1 < 2 ^ 259 := by decide

theorem witness_LeadingZeroCount :
    (1#128 : Word) ≠ 0#128 ∧ clz128 1#128 = 127 ∧ signBit ≠ 0#128 ∧ clz128 signBit = 0 := by decide

/-- Both sides of each equivalence occur: a zero, an infinity and a NaN enter the special path, 1 and 2 do not. -/
theorem witness_SpecialPathEntry :
    specialEntry 0#128 one = true ∧ specialEntry one minusInf = true ∧ specialEntry signaling one = true ∧
    specialEntry one two = false ∧ special smallestDenormal largest = none := by decide

theorem witness_FirstNaNWins :
    isNaN (xsOf (.add .nearest signaling minusInf)) = true ∧ isNaN (xsOf (.sub .nearest qnanRep one)) = true := by decide

/-- For SUB the sign of `b` is flipped first. -/
theorem witness_SecondNaNNext :
    isNaN (xsOf (.sub .upward infRep signaling)) = false ∧ isNaN (ysOf (.sub .upward infRep signaling)) = true := by decide

/-- Both branches: the infinity of the other sign, and a finite y. -/
theorem witness_FirstInfinity :
    isInfinite (xsOf (.sub .nearest infRep infRep)) = true ∧ isNaN (ysOf (.sub .nearest infRep infRep)) = false ∧
    isInfinite (ysOf (.sub .nearest infRep infRep)) = true ∧
    isInfinite (xsOf (.add .nearest minusInf one)) = true ∧ isNaN (ysOf (.add .nearest minusInf one)) = false := by decide

theorem witness_SecondInfinity :
    isFinite (xsOf (.add .nearest largest minusInf)) = true ∧ isInfinite (ysOf (.add .nearest largest minusInf)) = true := by
  decide

/-- All three branches: two negative zeros, zeros of different signs, a denormal y. -/
theorem witness_FirstZero :
    isZero (xsOf (.add .downward signBit signBit)) = true ∧ isFinite (ysOf (.add .downward signBit signBit)) = true ∧
    isZero (xsOf (.add .downward signBit 0#128)) = true ∧ isFinite (ysOf (.add .downward signBit 0#128)) = true ∧
    isZero (xsOf (.sub .downward 0#128 smallestDenormal)) = true ∧
    isFinite (ysOf (.sub .downward 0#128 smallestDenormal)) = true := by decide

theorem witness_SecondZero :
    (isNormal (xsOf (.add .nearest largest 0#128)) || isDenormal (xsOf (.add .nearest largest 0#128))) = true ∧
    isZero (ysOf (.add .nearest largest 0#128)) = true ∧
    (isNormal (xsOf (.sub .nearest smallestDenormal signBit)) ||
      isDenormal (xsOf (.sub .nearest smallestDenormal signBit))) = true ∧
    isZero (ysOf (.sub .nearest smallestDenormal signBit)) = true := by decide

/-- The two ends of the range are reached. -/
theorem witness_AlignmentAmountRange :
    special one minusOne = none ∧ alignAmount one minusOne = 0 ∧
    special largest smallestDenormal = none ∧ alignAmount largest smallestDenormal = 32877 := by decide

theorem witness_AlignShifterRanges :
    special one two = none ∧ alignAmount one two = 1 ∧
    special smallestDenormal smallestDenormal = none ∧ (alignShift smallestDenormal smallestDenormal).expA = -111 ∧
    special largest smallestDenormal = none ∧ (alignShift largest smallestDenormal).expA = 32766 := by decide

/-- `1` and `2^-116`: the least alignment of the rule. -/
theorem witness_FarOperandLeavesSticky :
    special one 0x3F8B0000000000000000000000000000#128 = none ∧
    alignAmount one 0x3F8B0000000000000000000000000000#128 = 116 := by decide

theorem witness_SignificandSumExact :
    special two minusOne = none ∧ (alignShift two minusOne).isSub = true ∧
    special two one = none ∧ (alignShift two one).isSub = false := by decide

theorem witness_ExactCancellation :
    special (xsOf (.sub .downward largest largest)) (ysOf (.sub .downward largest largest)) = none ∧
    absBits (xsOf (.sub .downward largest largest)) = absBits (ysOf (.sub .downward largest largest)) ∧
    signField (xsOf (.sub .downward largest largest)) ≠ signField (ysOf (.sub .downward largest largest)) := by decide

/-- A carry to the exponent 32767, and a cancellation down to -111. -/
theorem witness_SumNormalForm :
    special largest largest = none ∧ (faddGeneral .nearest largest largest).result = infRep ∧
    (sigAdd (alignShift largest largest).sigA (alignShift largest largest).sigB false).zero = false ∧
    special (smallestNormal + 1#128) (smallestNormal + signBit) = none ∧
    (sigAdd (alignShift (smallestNormal + 1#128) (smallestNormal + signBit)).sigA
      (alignShift (smallestNormal + 1#128) (smallestNormal + signBit)).sigB true).zero = false := by decide

/-- V-S24: the difference of two normal operands is the smallest denormal, at exponent -111. -/
theorem witness_DenormalResultExact :
    let al := alignShift (smallestNormal + 1#128) (smallestNormal + signBit)
    let sa := sigAdd al.sigA al.sigB al.isSub
    special (smallestNormal + 1#128) (smallestNormal + signBit) = none ∧ sa.zero = false ∧
    (normalizeSum sa.sum al.expA al.isSub).2 = -111 := by decide

/-- V-S23: the smallest normal less the smallest denormal, at exponent 0. -/
theorem witness_DenormalResultExact_at_zero :
    let al := alignShift smallestNormal (smallestDenormal + signBit)
    let sa := sigAdd al.sigA al.sigB al.isSub
    special smallestNormal (smallestDenormal + signBit) = none ∧ sa.zero = false ∧
    (normalizeSum sa.sum al.expA al.isSub).2 = 0 := by decide

theorem witness_InexactIsRoundBits : State.reset.cfg.hasFpenv = true := by decide

/-- The ends of the two ranges of shifts. -/
theorem witness_ShiftRightJam : (1 ≤ 1 ∧ 1 ≤ 127) ∧ (1 ≤ 127 ∧ 127 ≤ 127) ∧ 128 ≤ 128 := by decide

/-- V-O1: the largest finite value and itself. -/
theorem witness_OverflowGivesInfinity :
    let i : Instr := .add .towardZero largest largest
    let al := alignShift (xsOf i) (ysOf i)
    let sa := sigAdd al.sigA al.sigB al.isSub
    special (xsOf i) (ysOf i) = none ∧ sa.zero = false ∧ (renormalize sa.sum al.expA al.isSub).ovf = true := by decide

/-- V-O9: an increment carries into infinity without overflow. -/
theorem witness_GeneralResultShape :
    let y : Word := 0x7F8D0000000000000000000000000000#128
    let al := alignShift largest y
    let sa := sigAdd al.sigA al.sigB al.isSub
    special largest y = none ∧ sa.zero = false ∧ (renormalize sa.sum al.expA al.isSub).ovf = false ∧
    isInfinite (fadd .nearest largest y).result = true := by decide

/-- V-O10: finite operands with a finite result; V-S24: a denormal result. -/
theorem witness_FiniteResultIsRoundedExactResult :
    isFinite largest = true ∧ isFinite 0x7F8D0000000000000000000000000000#128 = true ∧
    isFinite (fadd .towardZero largest 0x7F8D0000000000000000000000000000#128).result = true ∧
    isFinite (smallestNormal + 1#128) = true ∧ isFinite (negate smallestNormal) = true ∧
    isFinite (fadd .nearest (smallestNormal + 1#128) (negate smallestNormal)).result = true := by decide

/-- Downward and Upward: the largest finite value and half a unit in its last place round to infinity in the mode that
rounds away from 0 for the sign (V-O12 is Upward), and to the largest finite value in the other. -/
theorem witness_OverflowExactlyBeyondLimit_directed :
    let half : Word := 0x7F8D0000000000000000000000000000#128
    isFinite largest = true ∧ isFinite half = true ∧ isFinite (negate largest) = true ∧ isFinite (negate half) = true ∧
    isInfinite (fadd .upward largest half).result = true ∧ isFinite (fadd .downward largest half).result = true ∧
    isInfinite (fadd .downward (negate largest) (negate half)).result = true ∧
    isFinite (fadd .upward (negate largest) (negate half)).result = true := by decide

/-- TowardZero: V-O10 is finite, and `2^16384`, the largest finite value and `2^16271`, is infinite (R72); the same sum is
infinite in Downward, with the sign that rounds toward 0. -/
theorem witness_OverflowExactlyBeyondLimit_toward_zero :
    let half : Word := 0x7F8D0000000000000000000000000000#128
    let ulp : Word := 0x7F8E0000000000000000000000000000#128
    isFinite largest = true ∧ isFinite half = true ∧ isFinite ulp = true ∧
    isFinite (fadd .towardZero largest half).result = true ∧ isInfinite (fadd .towardZero largest ulp).result = true ∧
    isInfinite (fadd .downward largest ulp).result = true := by decide

/-- The results on both sides of the limit in Nearest: V-O9 is infinite, V-O11 finite; and a negative infinity. -/
theorem witness_OverflowExactlyBeyondLimit :
    isFinite largest = true ∧ isFinite 0x7F8D0000000000000000000000000000#128 = true ∧
    isInfinite (fadd .nearest largest 0x7F8D0000000000000000000000000000#128).result = true ∧
    isFinite 0x7F8C0000000000000000000000000000#128 = true ∧
    isFinite (fadd .nearest largest 0x7F8C0000000000000000000000000000#128).result = true ∧
    isFinite (negate largest) = true ∧ isInfinite (fadd .nearest (negate largest) (negate largest)).result = true := by
  decide

/-- V-R1, a finite inexact result, and V-T35, a finite exact one. -/
theorem witness_InexactExactlyWhenNotExact :
    isFinite one = true ∧ isFinite halfUlp = true ∧ isFinite (fadd .nearest one halfUlp).result = true ∧
    (fadd .nearest one halfUlp).nx = true ∧ isFinite two = true ∧ isFinite (fadd .nearest one two).result = true ∧
    (fadd .nearest one two).nx = false := by decide

/-- One NaN; two NaNs. -/
theorem witness_AddCommutes :
    (isNaN signaling && isNaN one) = false ∧ (isNaN signaling && isNaN qnanRep) = true := by decide

/-- Both branches: `-0`, and an infinity. -/
theorem witness_ZeroIdentities : isNaN signBit = false ∧ isNaN minusInf = false := by decide

theorem witness_CancellationIsPositiveZero :
    isFinite 0#128 = true ∧ isFinite smallestDenormal = true ∧ isFinite largest = true := by decide

/-- Infinities of one sign, and a pair whose sum is rounded (V-P17). -/
theorem witness_SignSymmetry :
    isNaN infRep = false ∧ ¬(absBits infRep = absBits infRep ∧ signField infRep ≠ signField infRep) ∧
    isNaN one = false ∧ isNaN halfUlp = false ∧ ¬(absBits one = absBits halfUlp ∧ signField one ≠ signField halfUlp) := by
  decide

/-- ADD and SUB each answer a next state. -/
theorem witness_ExecFrame :
    (∃ t, exec (.add .nearest one halfUlp) State.reset = .next t) ∧
    (∃ t, exec (.sub .nearest one halfUlp) State.reset = .next t) := ⟨⟨_, rfl⟩, ⟨_, rfl⟩⟩

/-- A clock cycle that sets NX, which was clear: it is no host write. -/
theorem witness_FpenvChangesOnlyAsStated :
    let s := started Config.base [.clock (asks 0#1 one halfUlp)]
    (∃ t, step s = .next t) ∧ (∀ v, s.nextInput ≠ .writeRm v) ∧ s.nextInput = .clock (asks 0#1 one halfUlp) ∧
    s.cfg.hasFpenv = true ∧ fpenvNx s.fpenv = false ∧ shown (step s) = some (one, true, 0b100#3) :=
  ⟨⟨_, rfl⟩, fun _ => nofun, rfl, rfl, rfl, by decide⟩

/-- A host write of RM. -/
theorem witness_FpenvChangesOnlyAsStated_write :
    (∃ t, step (started deep [.writeRm 0b11#2]) = .next t) ∧
    (started deep [.writeRm 0b11#2]).nextInput = .writeRm 0b11#2 := ⟨⟨_, rfl⟩, rfl⟩

theorem witness_HostWritesOneField :
    (started deep [.writeRm 0b10#2]).cfg.hasFpenv = true ∧ (started deep [.writeRm 0b10#2]).inputs = [.writeRm 0b10#2] ∧
    (started deep [.writeNx false]).inputs = [.writeNx false] := by decide

theorem witness_NoFpenvRecordsNothing :
    (started bare [.clock (asks 0#1 one halfUlp)]).cfg.hasFpenv = false ∧
    ∃ t, step (started bare [.clock (asks 0#1 one halfUlp)]) = .next t := ⟨rfl, ⟨_, rfl⟩⟩

/-- A request that leaves a combinational unit; a pipelined one in which none leaves. -/
theorem witness_StepRunsDecodedRequest :
    (started Config.base [.clock (asks 1#1 two three)]).nextInput = .clock (asks 1#1 two three) ∧
    (started Config.base [.clock (asks 1#1 two three)]).leaving (asks 1#1 two three) =
      some (requestWord 1#1 0b00#2 two three) ∧
    (started deep [.clock (asks 1#1 two three)]).nextInput = .clock (asks 1#1 two three) ∧
    (started deep [.clock (asks 1#1 two three)]).leaving (asks 1#1 two three) = none := by decide

theorem witness_PlacedWordRunsNext :
    decodeTableWord 8 0b110 = some (.sub .upward 0#128 0#128) ∧
    Instr.wellFormed deep (.sub .upward 0#128 0#128) = true ∧
    decodeTableWord 8 0b000 = some (.add .nearest 0#128 0#128) ∧
    Instr.wellFormed bare (.add .nearest 0#128 0#128) = true := by decide

theorem witness_StepKeepsInvariant :
    (started deep [.clock (asks 0#1 one two)]).Inv ∧ ∃ t, step (started deep [.clock (asks 0#1 one two)]) = .next t :=
  ⟨witness_started_inv _ _, ⟨_, rfl⟩⟩

/-- A reset cycle with a request in flight. -/
theorem witness_ResetCycleDropsRequests :
    let p : Ports := { asks 0#1 one two with rst := true }
    let s := { started deep [.clock p] with pipe := [{ valid := true, data := 5#259 }, { valid := true, data := 7#259 }] }
    s.cfg.latency ≠ 0 ∧ s.nextInput = .clock p ∧ p.rst = true ∧ s.inFlight = [7#259, 5#259] := by decide

theorem witness_ResetWithoutPipelineHasNoEffect :
    let p : Ports := { asks 0#1 one two with rst := true }
    (started Config.base [.clock p]).cfg.latency = 0 ∧ (started Config.base [.clock p]).inputs = [.clock p] := by decide

theorem witness_NoResponseBeforeRequest :
    (started deep [.clock (asks 0#1 one two)]).Inv ∧ (started deep [.clock (asks 0#1 one two)]).inFlight = [] ∧
    (started deep [.clock (asks 0#1 one two)]).nextInput = .clock (asks 0#1 one two) ∧
    (started deep [.clock (asks 0#1 one two)]).accepts (asks 0#1 one two) = true :=
  ⟨witness_started_inv _ _, rfl, rfl, rfl⟩

/-- A request whose response comes two cycles later, with a host write and another request in between. -/
theorem witness_ResponseAfterLatency :
    let later : List Input := [.clock (asks 1#1 two three), .writeRm 0b11#2, .clock Ports.idle]
    let s := started deep (.clock (asks 0#1 one two) :: (later ++ []))
    s.Inv ∧ s.inputs = .clock (asks 0#1 one two) :: (later ++ []) ∧ s.accepts (asks 0#1 one two) = true ∧
    (∀ q, .clock q ∈ later → q.rst = false) ∧ clockCount later = s.cfg.latency ∧ endsInClock later := by
  refine ⟨witness_started_inv _ _, rfl, rfl, ?_, rfl, fun i h => ⟨Ports.idle, ?_⟩⟩
  · intro q hq
    simp only [List.mem_cons, Input.clock.injEq, reduceCtorEq, List.not_mem_nil, false_or, or_false] at hq
    rcases hq with rfl | rfl <;> rfl
  · simpa using h.symm

/-- A combinational unit: the response is in the same cycle. -/
theorem witness_ResponseAfterLatency_combinational :
    let s := started Config.base [.clock (asks 0#1 one two)]
    s.Inv ∧ s.inputs = .clock (asks 0#1 one two) :: ([] ++ []) ∧ s.accepts (asks 0#1 one two) = true ∧
    clockCount [] = s.cfg.latency ∧ endsInClock [] :=
  ⟨witness_started_inv _ _, rfl, rfl, rfl, fun _ => nofun⟩

/-- A cycle with a request in a pipelined unit. -/
theorem witness_CycleRefinesTransactions :
    (started deep [.clock (asks 0#1 one two)]).Inv ∧
    (started deep [.clock (asks 0#1 one two)]).nextInput = .clock (asks 0#1 one two) ∧
    (started deep [.clock (asks 0#1 one two)]).resetting (asks 0#1 one two) = false :=
  ⟨witness_started_inv _ _, rfl, rfl⟩

/-- Two states that differ, and only in the data of an invalid stage. -/
theorem witness_InvalidStagesUnobservable :
    let st (d : BitVec 259) : List Stage := [{ valid := false, data := d }, { valid := true, data := 7#259 }]
    let s := { started deep [] with pipe := st 1#259 }
    let s' := { started deep [] with pipe := st 2#259 }
    s ≠ s' ∧ s.agrees s' :=
  ⟨by decide, .cons ⟨rfl, nofun⟩ (.cons ⟨rfl, fun _ => rfl⟩ .nil), rfl⟩

/-- A pattern, and the name of an earlier result. -/
theorem witness_AssembledLineEncodes :
    AsmOperand.value [(3, three)] (.pattern two) = some two ∧ AsmOperand.value [(3, three)] (.result 3) = some three := by
  decide

/-- Program P5: the memory image of 3.0 at address 32, in both byte orders. -/
theorem test_host_image :
    (hostStore .little 32 three).toOption.map (·.map (·.2)) =
      some [0x00, 0x00, 0x00, 0x00, 0x00, 0x00, 0x00, 0x00, 0x00, 0x00, 0x00, 0x00, 0x00, 0x80, 0x00, 0x40] ∧
    (hostStore .big 32 three).toOption.map (·.map (·.2)) =
      some [0x40, 0x00, 0x80, 0x00, 0x00, 0x00, 0x00, 0x00, 0x00, 0x00, 0x00, 0x00, 0x00, 0x00, 0x00, 0x00] := by decide

theorem witness_HostImageRoundTrip :
    0 % 16 = 0 ∧ 16 % 16 = 0 ∧ 1 % 16 ≠ 0 ∧ 15 % 16 ≠ 0 ∧ 0 < 16 ∧ 15 < 16 := by decide

/-- A delay of 0; and a delay of 1 with a host write in between, after which the port still has the older value. -/
theorem witness_PortRmCarriesFpenvRm :
    let s := started deep (.clock Ports.idle :: ([.writeRm 0b11#2] ++ []))
    (started Config.base []).Inv ∧ (started Config.base []).cfg.hasFpenv = true ∧
    (started Config.base []).cfg.rmDelay = 0 ∧
    s.Inv ∧ s.cfg.hasFpenv = true ∧ s.inputs = .clock Ports.idle :: ([.writeRm 0b11#2] ++ []) ∧
    clockCount [.writeRm 0b11#2] + 1 = s.cfg.rmDelay :=
  ⟨witness_started_inv _ _, rfl, rfl, witness_started_inv _ _, rfl, rfl, rfl⟩

end Sys2Proof.Tests
end

/-! ## The count of leading zeros (R10) -/

namespace Sys2Proof.Machine

theorem clz128_zero : clz128 0#128 = 128 := rfl

theorem clz128_of_ne_zero {v : Word} (h : v ≠ 0#128) : clz128 v = 127 - Nat.log2 v.toNat := if_neg h

/-- The leading one of a nonzero pattern stands `clz128` places below bit 127. -/
theorem clz128_bounds {v : Word} (h : v ≠ 0#128) :
    clz128 v ≤ 127 ∧ 2 ^ (127 - clz128 v) ≤ v.toNat ∧ v.toNat < 2 ^ (128 - clz128 v) := by
  have hpos : v.toNat ≠ 0 := BitVec.toNat_ne_iff_ne.mpr h
  have hlog : v.toNat.log2 < 128 := (Nat.log2_lt hpos).mpr v.isLt
  have hlow : 127 - (127 - v.toNat.log2) = v.toNat.log2 := by omega
  have hhigh : 128 - (127 - v.toNat.log2) = v.toNat.log2 + 1 := by omega
  rw [clz128_of_ne_zero h, hlow, hhigh]
  exact ⟨Nat.sub_le .., Nat.log2_self_le hpos, Nat.lt_log2_self⟩

/-- Settles O9: the powers of two around a nonzero pattern bound its count, and the three counts of constants evaluate. -/
theorem leadingZeroCount : Obligations.LeadingZeroCount :=
  ⟨clz128_zero, by decide, by decide, fun _ => clz128_bounds⟩

end Sys2Proof.Machine

/-! ## Shift right with sticky (R11) -/

namespace Sys2Proof.Machine

/-- The left shift of R11 keeps the bits that a right shift by `n` drops, and no others. -/
theorem shiftLeft_toNat_of_dropped (v : Word) {n : Nat} (h : n ≤ 128) :
    (v <<< (128 - n)).toNat = v.toNat % 2 ^ n * 2 ^ (128 - n) := by
  have hwidth : 2 ^ 128 = 2 ^ n * 2 ^ (128 - n) := by rw [← Nat.pow_add, Nat.add_sub_cancel' h]
  rw [BitVec.toNat_shiftLeft, Nat.shiftLeft_eq, hwidth, Nat.mul_mod_mul_right]

theorem bne_zero_eq_toNat (v : Word) : (v != 0#128) = (v.toNat != 0) := by
  rw [Bool.eq_iff_iff, bne_iff_ne, bne_iff_ne]
  exact BitVec.toNat_ne_iff_ne.symm

/-- The sticky bit of R11 is the remainder's: a dropped bit is set exactly when `v` is no multiple of `2^n`. -/
theorem sticky_eq_mod (v : Word) {n : Nat} (h : n ≤ 128) :
    (v <<< (128 - n) != 0#128) = (v.toNat % 2 ^ n != 0) := by
  rw [bne_zero_eq_toNat, shiftLeft_toNat_of_dropped v h, Bool.eq_iff_iff, bne_iff_ne, bne_iff_ne,
    Nat.mul_ne_zero_iff, and_iff_left (Nat.two_pow_pos _).ne']

theorem srj_of_le {v : Word} {n : Nat} (h1 : 1 ≤ n) (h2 : n ≤ 127) :
    srj v n = (v >>> n) ||| boolWord (v <<< (128 - n) != 0#128) := by
  rw [srj, if_neg (by omega), if_pos h2]

/-- `srj` in one form for every shift (R11). -/
theorem srj_eq_or_mod (v : Word) (n : Nat) : srj v n = (v >>> n) ||| boolWord (v.toNat % 2 ^ n != 0) := by
  obtain rfl | ⟨h1, h2⟩ | h : n = 0 ∨ (1 ≤ n ∧ n ≤ 127) ∨ 128 ≤ n := by omega
  · simp [srj_zero, boolWord, Nat.mod_one]
  · rw [srj_of_le h1 h2, sticky_eq_mod v (by omega)]
  · have hlt : v.toNat < 2 ^ n := v.isLt.trans_le (Nat.pow_le_pow_right (by decide) h)
    rw [srj_of_ge v n h, Nat.mod_eq_of_lt hlt, BitVec.ushiftRight_eq_zero h, BitVec.zero_or, bne_zero_eq_toNat]

/-- Settles O10, from the three cases of the definition and the form for every shift. -/
theorem shiftRightJam : Obligations.ShiftRightJam :=
  fun v n => ⟨srj_zero v, srj_of_le, srj_of_ge v n, srj_eq_or_mod v n⟩

end Sys2Proof.Machine

/-! ## Responses (R13) -/

namespace Sys2Proof.Machine

/-- Settles O41: each state presents `answerOf i`, which reads no state. -/
theorem responseDependsOnRequestAlone : Obligations.ResponseDependsOnRequestAlone :=
  fun i s s' =>
    ⟨s.present (answerOf i), s'.present (answerOf i), exec_eq_present i s, exec_eq_present i s',
      rfl, rfl, rfl, rfl⟩

end Sys2Proof.Machine

/-! ## A step as an equation (R19, R100) -/

namespace Sys2Proof.Machine

theorem State.nextInput_of_cons {s : State} {i : Input} {l : List Input} (h : s.inputs = i :: l) :
    s.nextInput = i := by
  rw [State.nextInput, h]

/-- The state that a clock cycle leaves (R19): that of the clock edge, with a response where a request leaves the
pipeline. -/
def State.cycle (s : State) (p : Ports) : State :=
  match s.leaving p with
  | some w => (s.takeInput.clockEdge p).present (answerOf (decodeRequest w))
  | none => s.takeInput.clockEdge p

section cycle

variable {s : State} {p : Ports}

theorem State.cycle_of_leaving {w : BitVec 259} (h : s.leaving p = some w) :
    s.cycle p = (s.takeInput.clockEdge p).present (answerOf (decodeRequest w)) := by
  rw [State.cycle, h]

theorem State.cycle_of_not_leaving (h : s.leaving p = none) : s.cycle p = s.takeInput.clockEdge p := by
  rw [State.cycle, h]

variable (s p)

@[simp] theorem State.cycle_cfg : (s.cycle p).cfg = s.cfg := by
  unfold State.cycle; split <;> rfl

@[simp] theorem State.cycle_pipe : (s.cycle p).pipe = s.pipeAfter p := by
  unfold State.cycle; split <;> rfl

@[simp] theorem State.cycle_rmLine : (s.cycle p).rmLine = lineShift (fpenvRm s.fpenv) s.rmLine := by
  unfold State.cycle; split <;> rfl

@[simp] theorem State.cycle_inputs : (s.cycle p).inputs = s.inputs.tail := by
  unfold State.cycle; split <;> rfl

@[simp] theorem State.cycle_outValid : (s.cycle p).outValid = (s.leaving p).isSome := by
  unfold State.cycle; split <;> simp [*]

/-- The one change of FPENV in a clock cycle is that NX records a presented `nx` (R22). -/
theorem State.cycle_fpenv :
    (s.cycle p).fpenv = raiseInexact s.cfg.hasFpenv ((s.cycle p).outValid && (s.cycle p).nx) s.fpenv := by
  cases h : s.leaving p with
  | some w => simp [State.cycle_of_leaving h]
  | none => cases hf : s.cfg.hasFpenv <;> simp [State.cycle_of_not_leaving h, raiseInexact, setFpenvNx]

end cycle

section step

variable {s t : State}

theorem step_of_writeRm {v : BitVec 2} (h : s.nextInput = .writeRm v) :
    step s = .next (s.takeInput.hostWriteRm v) := by
  rw [step, h]

theorem step_of_writeNx {v : Bool} (h : s.nextInput = .writeNx v) :
    step s = .next (s.takeInput.hostWriteNx v) := by
  rw [step, h]

theorem step_of_leaving {p : Ports} {w : BitVec 259} (h : s.nextInput = .clock p) (hw : s.leaving p = some w) :
    step s = exec (decodeRequest w) (s.takeInput.clockEdge p) := by
  simp only [step, h, hw]

theorem step_of_clock {p : Ports} (h : s.nextInput = .clock p) : step s = .next (s.cycle p) := by
  cases hw : s.leaving p with
  | some w => rw [step_of_leaving h hw, exec_eq_present, State.cycle_of_leaving hw]
  | none => simp only [step, h, hw, State.cycle_of_not_leaving hw]

/-- The three inputs a step can take, with a clock cycle as one case. -/
theorem step_cases_cycle (h : step s = .next t) :
    (∃ v, s.nextInput = .writeRm v ∧ t = s.takeInput.hostWriteRm v) ∨
    (∃ v, s.nextInput = .writeNx v ∧ t = s.takeInput.hostWriteNx v) ∨
    (∃ p, s.nextInput = .clock p ∧ t = s.cycle p) := by
  rcases step_cases h with hrm | hnx | ⟨p, w, hp, hw, rfl⟩ | ⟨p, hp, hw, rfl⟩
  · exact .inl hrm
  · exact .inr (.inl hnx)
  · exact .inr (.inr ⟨p, hp, (State.cycle_of_leaving hw).symm⟩)
  · exact .inr (.inr ⟨p, hp, (State.cycle_of_not_leaving hw).symm⟩)

theorem step_answers (s : State) : ∃ t, step s = .next t := by
  cases h : s.nextInput with
  | clock p => exact ⟨_, step_of_clock h⟩
  | writeRm v => exact ⟨_, step_of_writeRm h⟩
  | writeNx v => exact ⟨_, step_of_writeNx h⟩

theorem step_cfg (h : step s = .next t) : t.cfg = s.cfg := by
  rcases step_cases_cycle h with ⟨v, -, rfl⟩ | ⟨v, -, rfl⟩ | ⟨p, -, rfl⟩ <;> simp

theorem step_inputs (h : step s = .next t) : t.inputs = s.inputs.tail := by
  rcases step_cases_cycle h with ⟨v, -, rfl⟩ | ⟨v, -, rfl⟩ | ⟨p, -, rfl⟩ <;> simp

theorem step_pipe_length (h : step s = .next t) : t.pipe.length = s.pipe.length := by
  rcases step_cases_cycle h with ⟨v, -, rfl⟩ | ⟨v, -, rfl⟩ | ⟨p, -, rfl⟩ <;> simp

theorem step_rmLine_length (h : step s = .next t) : t.rmLine.length = s.rmLine.length := by
  rcases step_cases_cycle h with ⟨v, -, rfl⟩ | ⟨v, -, rfl⟩ | ⟨p, -, rfl⟩ <;> simp

/-- Without an FPENV no step writes its field (R23; log 10). -/
theorem step_fpenv_without (hf : s.cfg.hasFpenv = false) (h : step s = .next t) : t.fpenv = s.fpenv := by
  rcases step_cases_cycle h with ⟨v, -, rfl⟩ | ⟨v, -, rfl⟩ | ⟨p, -, rfl⟩
  · simp [hf]
  · simp [hf]
  · simp [State.cycle_fpenv, hf]

end step

end Sys2Proof.Machine

/-! ## The invariant (R23, R25) -/

namespace Sys2Proof.Machine

/-- The mode of a sampled request is that on port `rm` (R19, R21). -/
@[simp] theorem State.requestRm_sampled (s : State) (p : Ports) : requestRm (s.sampled p) = s.portRm :=
  requestRm_requestWord ..

/-- A request that a clock edge leaves in the pipeline was in it or has entered it. -/
theorem State.mem_of_mem_pipeAfter {s : State} {p : Ports} {st : Stage} (hv : st.valid = true)
    (h : st ∈ s.pipeAfter p) : st = s.entering p ∨ st ∈ s.pipe := by
  have hmem := mem_of_mem_forgetInvalid hv _ _ h
  split at hmem
  · obtain ⟨x, -, rfl⟩ := List.mem_map.mp hmem
    cases hv
  · exact mem_lineShift hmem

/-- Without an FPENV every request in flight after a step is in Nearest: it was in flight before, or port `rm`, tied to
`0b00`, gave it its mode (R23). -/
theorem State.Inv.nearest_of_step {s t : State} (hs : s.Inv) (h : step s = .next t) (hf : s.cfg.hasFpenv = false) :
    ∀ st ∈ t.pipe, st.valid = true → requestRm st.data = 0b00#2 := by
  rcases step_cases_cycle h with ⟨v, -, rfl⟩ | ⟨v, -, rfl⟩ | ⟨p, -, rfl⟩
  · exact hs.noFpenv_nearest hf
  · exact hs.noFpenv_nearest hf
  · intro st hst hv
    rw [State.cycle_pipe] at hst
    rcases State.mem_of_mem_pipeAfter hv hst with rfl | hmem
    · exact (s.requestRm_sampled p).trans (State.portRm_without hf)
    · exact hs.noFpenv_nearest hf st hmem hv

theorem State.Inv.step {s t : State} (hs : s.Inv) (h : step s = .next t) : t.Inv where
  pipe_length := by rw [step_pipe_length h, hs.pipe_length, step_cfg h]
  rmLine_length := by rw [step_rmLine_length h, hs.rmLine_length, step_cfg h]
  noFpenv_fpenv hf := by
    rw [step_cfg h] at hf
    rw [step_fpenv_without hf h, hs.noFpenv_fpenv hf]
  noFpenv_nearest hf := hs.nearest_of_step h (step_cfg h ▸ hf)

/-- Settles O50: each clause of the invariant is kept by itself, whatever input the step takes. -/
theorem stepKeepsInvariant : Obligations.StepKeepsInvariant :=
  fun _ _ hs h => ⟨hs.step h, step_cfg h⟩

theorem State.resetFor_inv (cfg : Config) : (State.resetFor cfg).Inv where
  pipe_length := List.length_replicate
  rmLine_length := List.length_replicate
  noFpenv_fpenv _ := rfl
  noFpenv_nearest _ st hst hv := by
    rw [List.eq_of_mem_replicate hst] at hv
    cases hv

/-- Settles O49, for the parameters of the machine as for any other. -/
theorem resetMeetsInvariant : Obligations.ResetMeetsInvariant :=
  ⟨State.resetFor_inv, State.resetFor_inv Config.base⟩

end Sys2Proof.Machine

/-! ## FPENV and the frame (R15, R20 to R23, R26) -/

namespace Sys2Proof.Machine

/-- Settles O40: an instruction presents its response, and presenting changes the output ports and FPENV.NX alone. -/
theorem execFrame : Obligations.ExecFrame := by
  intro i s t h
  rw [exec_eq_present] at h
  cases h
  exact ⟨rfl, rfl, rfl, rfl, rfl, fpenvRm_raiseInexact .., fpenvNx_raiseInexact ..⟩

@[simp] theorem State.fpenvNx_hostWriteRm (s : State) (v : BitVec 2) :
    fpenvNx (s.hostWriteRm v).fpenv = fpenvNx s.fpenv := by
  cases hf : s.cfg.hasFpenv <;> simp [hf]

@[simp] theorem State.fpenvRm_hostWriteNx (s : State) (v : Bool) :
    fpenvRm (s.hostWriteNx v).fpenv = fpenvRm s.fpenv := by
  cases hf : s.cfg.hasFpenv <;> simp [hf]

/-- Settles O42: each of the three inputs a step can take changes the field that the statement says, if any. -/
theorem fpenvChangesOnlyAsStated : Obligations.FpenvChangesOnlyAsStated := by
  intro s t h
  rcases step_cases_cycle h with ⟨v, hv, rfl⟩ | ⟨v, hv, rfl⟩ | ⟨p, hp, rfl⟩
  · refine ⟨fun hno => absurd hv (hno v), fun _ _ => s.takeInput.fpenvNx_hostWriteRm v, fun _ hp => ?_⟩
    cases hv.symm.trans hp
  · refine ⟨fun _ => s.takeInput.fpenvRm_hostWriteNx v, fun _ hrm => ?_, fun _ hp => ?_⟩
    · cases hv.symm.trans hrm
    · cases hv.symm.trans hp
  · refine ⟨fun _ => ?_, fun _ hrm => ?_, fun _ _ hf => ?_⟩
    · rw [State.cycle_fpenv, fpenvRm_raiseInexact]
    · cases hp.symm.trans hrm
    · rw [State.cycle_fpenv, fpenvNx_raiseInexact, hf, Bool.true_and]

theorem fpenvRm_toNat : ∀ f : BitVec 3, (fpenvRm f).toNat = f.toNat % 4 := by decide

theorem fpenvOf_toNat : ∀ (rm : BitVec 2) (nx : Bool), (fpenvOf rm nx).toNat = rm.toNat + if nx then 4 else 0 := by
  decide

/-- Settles O43: the layout is checked on every value of FPENV, and the two steps are the host's writes. -/
theorem hostWritesOneField : Obligations.HostWritesOneField := by
  refine ⟨fun f => ⟨fpenvRm_toNat f, rfl⟩, fpenvOf_toNat, fun s rest hf => ⟨fun v h => ?_, fun v h => ?_⟩⟩
  · rw [step_of_writeRm (State.nextInput_of_cons h)]
    simp [State.hostWriteRm, State.takeInput, setFpenvRm, hf, h]
  · rw [step_of_writeNx (State.nextInput_of_cons h)]
    simp [State.hostWriteNx, State.takeInput, setFpenvNx, hf, h]

/-- Settles O44: port `rm` is tied, and each of the three inputs a step can take leaves the field as it is. -/
theorem noFpenvRecordsNothing : Obligations.NoFpenvRecordsNothing :=
  fun _ _ hf h => ⟨State.portRm_without hf, step_fpenv_without hf h⟩

end Sys2Proof.Machine

/-! ## Clock cycles and reset (R19, R27, R94, R95) -/

namespace Sys2Proof.Machine

/-- Settles O45: the state given to the request is that of the clock edge, written out. -/
theorem stepRunsDecodedRequest : Obligations.StepRunsDecodedRequest := by
  intro s p hp
  refine ⟨fun w hw => step_of_leaving hp hw, fun hw => ⟨s.cycle p, step_of_clock hp, ?_⟩⟩
  rw [State.cycle_of_not_leaving hw]
  exact ⟨rfl, rfl, rfl, rfl⟩

theorem fpenvNx_zero : fpenvNx 0b000#3 = false := by decide

/-- Settles O48: every stage is a copy of one that is not valid. -/
theorem resetValues : Obligations.ResetValues :=
  fun _ => ⟨rfl, fpenvNx_zero, rfl, fun _ hst => congrArg Stage.valid (List.eq_of_mem_replicate hst)⟩

/-- The requests in flight after a cycle (R19, R95). -/
theorem State.inFlight_cycle (s : State) (p : Ports) :
    (s.cycle p).inFlight =
      if s.resetting p then []
      else (((lineShift (s.entering p) s.pipe).filter (·.valid)).map (·.data)).reverse := by
  rw [State.inFlight, State.cycle_pipe, State.filter_valid_pipeAfter]
  split <;> rfl

theorem State.resetting_of_rst {s : State} {p : Ports} (hl : s.cfg.latency ≠ 0) (hr : p.rst = true) :
    s.resetting p = true := by
  simp [State.resetting, hl, hr]

/-- A combinational unit has no register that `rst` could clear (R94). -/
theorem State.resetting_of_latency_zero {s : State} {p : Ports} (hl : s.cfg.latency = 0) :
    s.resetting p = false := by
  simp [State.resetting, hl]

theorem State.isSome_leaving (s : State) (p : Ports) :
    (s.leaving p).isSome = ((lineOut (s.entering p) s.pipe).valid && !s.resetting p) := by
  rw [State.leaving]
  cases (lineOut (s.entering p) s.pipe).valid && !s.resetting p <;> rfl

/-- Settles O51: while reset acts nothing leaves, and every valid bit is cleared. -/
theorem resetCycleDropsRequests : Obligations.ResetCycleDropsRequests := by
  intro s p hl hp hr
  have hreset := State.resetting_of_rst hl hr
  have hnone : s.leaving p = none := (s.leaving_eq_none_iff p).mpr (.inr hreset)
  refine ⟨s.cycle p, step_of_clock hp, ?_, ?_, ?_⟩
  · rw [State.cycle_outValid, hnone, Option.isSome_none]
  · rw [State.inFlight_cycle, if_pos hreset]
  · rw [State.cycle_of_not_leaving hnone, State.clockEdge_fpenv, State.takeInput_fpenv]

end Sys2Proof.Machine

/-! ## A cycle with nothing in flight (R19, R95) -/

namespace Sys2Proof.Machine

theorem State.inFlight_eq_nil_iff (s : State) : s.inFlight = [] ↔ ∀ st ∈ s.pipe, st.valid = false := by
  simp [State.inFlight, List.filter_eq_nil_iff]

theorem State.Inv.pipe_eq_nil {s : State} (hs : s.Inv) (hl : s.cfg.latency = 0) : s.pipe = [] :=
  List.eq_nil_of_length_eq_zero (hs.pipe_length.trans hl)

theorem State.Inv.pipe_ne_nil {s : State} (hs : s.Inv) (hl : s.cfg.latency ≠ 0) : s.pipe ≠ [] :=
  List.ne_nil_of_length_pos (Nat.pos_of_ne_zero (hs.pipe_length ▸ hl))

theorem lineOut_mem {α : Type} (x : α) {l : List α} (h : l ≠ []) : lineOut x l ∈ l := by
  rw [lineOut, List.getLast_cons h]
  exact List.getLast_mem h

/-- What enters a line of invalid stages is all that can be valid in it after the clock edge. -/
theorem filter_valid_lineShift_of_invalid (x : Stage) {l : List Stage} (hl : l ≠ [])
    (h : ∀ st ∈ l, st.valid = false) : (lineShift x l).filter (·.valid) = [x].filter (·.valid) := by
  cases l with
  | nil => exact absurd rfl hl
  | cons y ys =>
    have htail : (lineShift y ys).filter (·.valid) = [] := by
      rw [List.filter_eq_nil_iff]
      intro st hst
      rw [h st (List.mem_cons.mpr (mem_lineShift hst))]
      exact Bool.false_ne_true
    rw [lineShift_cons, List.filter_cons, htail, List.filter_cons, List.filter_nil]

/-- Settles O53: in a combinational unit the request at the ports is the one that leaves; in a pipelined one the last
stage is invalid, and only the stage that enters can be valid. -/
theorem noResponseBeforeRequest : Obligations.NoResponseBeforeRequest := by
  intro s p hs hidle hp
  rw [State.inFlight_eq_nil_iff] at hidle
  refine ⟨s.cycle p, step_of_clock hp, ?_⟩
  rw [State.cycle_outValid, State.isSome_leaving, State.inFlight_cycle]
  by_cases hl : s.cfg.latency = 0
  · simp [hs.pipe_eq_nil hl, State.entering, State.accepts, State.resetting_of_latency_zero hl, hl]
  · have hpipe := hs.pipe_ne_nil hl
    rw [hidle _ (lineOut_mem _ hpipe), filter_valid_lineShift_of_invalid _ hpipe hidle]
    cases hr : s.resetting p <;> cases hv : p.inValid <;> simp [State.entering, State.accepts, hl, hr, hv]

end Sys2Proof.Machine

/-! ## The placed request (R19, R41; log 12) -/

namespace Sys2Proof

theorem RoundingMode.ofCode_eq_nearest_iff : ∀ c : BitVec 2, RoundingMode.ofCode c = .nearest ↔ c = 0b00#2 := by
  decide

theorem decodeRequest_rm (w : BitVec 259) : (decodeRequest w).rm = .ofCode (requestRm w) := by
  rw [decodeRequest]
  split <;> rfl

/-- A request word is put together from its fields (R41). -/
theorem requestWord_fields (w : BitVec 259) :
    requestWord (requestOp w) (requestRm w) (requestA w) (requestB w) = w := by
  apply BitVec.eq_of_getLsbD_eq
  intro i hi
  rw [requestWord_getLsbD]
  split_ifs with h1 h2 h3
  · simp [requestB, h1]
  · have hlt : i - 128 < 128 := by omega
    have hadd : 128 + (i - 128) = i := by omega
    rw [requestA, BitVec.getLsbD_extractLsb', hadd, decide_eq_true hlt, Bool.true_and]
  · have hlt : i - 256 < 2 := by omega
    have hadd : 256 + (i - 256) = i := by omega
    rw [requestRm, BitVec.getLsbD_extractLsb', hadd, decide_eq_true hlt, Bool.true_and]
  · have hlt : i - 258 < 1 := by omega
    have hadd : 258 + (i - 258) = i := by omega
    rw [requestOp, BitVec.getLsbD_extractLsb', hadd, decide_eq_true hlt, Bool.true_and]

end Sys2Proof

namespace Sys2Proof.Machine

/-- The mode of a request word can stand on port `rm`: any mode where an FPENV exists, `0b00` where none does (R23). -/
def modeAllowed (cfg : Config) (w : BitVec 259) : Prop :=
  cfg.hasFpenv = true ∨ requestRm w = 0b00#2

theorem modeAllowed_of_wellFormed {cfg : Config} {w : BitVec 259} (h : (decodeRequest w).wellFormed cfg = true) :
    modeAllowed cfg w := by
  rw [Instr.wellFormed, Bool.or_eq_true, beq_iff_eq, decodeRequest_rm, RoundingMode.ofCode_eq_nearest_iff] at h
  exact h

/-- Port `rm` shows the mode of an allowed request that the end of its line, or FPENV where it has none, holds. -/
theorem State.portRm_of_modeAllowed {s : State} {w : BitVec 259} (h : modeAllowed s.cfg w)
    (hline : lineOut (fpenvRm s.fpenv) s.rmLine = requestRm w) : s.portRm = requestRm w := by
  cases hf : s.cfg.hasFpenv with
  | true => rw [State.portRm_with hf, hline]
  | false =>
    rw [State.portRm_without hf, h.resolve_left (by simp [hf])]

/-- A request at the ports of a unit without stages leaves at once, with the mode on port `rm`. -/
theorem State.leaving_ofRequest {s : State} {w : BitVec 259} (hpipe : s.pipe = []) (hrm : s.portRm = requestRm w) :
    s.leaving (.ofRequest w) = some w := by
  have hreset : s.resetting (.ofRequest w) = false := rfl
  have hword : s.sampled (.ofRequest w) = w := by rw [State.sampled, hrm]; exact requestWord_fields w
  rw [State.leaving_eq_some_iff, hpipe, lineOut_nil, State.entering, State.accepts, hreset, hword]
  exact ⟨rfl, rfl⟩

/-- The next step after a request is placed is a clock cycle in which it leaves the pipeline: from the ports, where the
unit has no stage, with its mode in FPENV or at the end of the delay line; otherwise from the last stage. -/
theorem State.placeRequest_leaves {s : State} {w : BitVec 259} (h : modeAllowed s.cfg w) :
    ∃ p, (s.placeRequest w).nextInput = .clock p ∧ (s.placeRequest w).leaving p = some w := by
  unfold State.placeRequest
  split
  next hpipe hline =>
    refine ⟨_, rfl, State.leaving_ofRequest hpipe (State.portRm_of_modeAllowed h ?_)⟩
    simp [hline]
  next hpipe hline =>
    exact ⟨_, rfl, State.leaving_ofRequest hpipe (State.portRm_of_modeAllowed h (lineOut_setLast _ _ _ hline))⟩
  next hpipe _ =>
    exact ⟨_, rfl, (State.leaving_eq_some_iff ..).mpr ⟨lineOut_setLast _ _ _ hpipe, rfl⟩⟩

/-- Settles O46: the placed word is the one that leaves the pipeline in the next step. -/
theorem placedWordRunsNext : Obligations.PlacedWordRunsNext := by
  intro s nbits w i hi hwf
  rw [← decodeRequest_of_decodeTableWord hi] at hwf ⊢
  obtain ⟨p, hp, hw⟩ := State.placeRequest_leaves (modeAllowed_of_wellFormed hwf)
  exact ⟨p, hp, step_of_leaving hp hw⟩

end Sys2Proof.Machine

/-! ## Invalid stages (R25, I2) -/

namespace Sys2Proof.Machine

/-- Two stages agree on the valid bit, and on the data where it is 1 (R25). -/
def Stage.agrees (st st' : Stage) : Prop := st.valid = st'.valid ∧ (st.valid = true → st.data = st'.data)

theorem Stage.agrees_refl (st : Stage) : st.agrees st := ⟨rfl, fun _ => rfl⟩

theorem Stage.eq_of_agrees {st st' : Stage} (h : st.agrees st') (hv : st.valid = true) : st = st' := by
  obtain ⟨hvalid, hdata⟩ := h
  rcases st with ⟨v, d⟩
  rcases st' with ⟨v', d'⟩
  exact (Stage.mk.injEq ..).mpr ⟨hvalid, hdata hv⟩

theorem Stage.agrees_symm {st st' : Stage} (h : st.agrees st') : st'.agrees st :=
  ⟨h.1.symm, fun hv => (h.2 (h.1.trans hv)).symm⟩

/-- Stages that agree carry the same request, or none. -/
theorem Stage.carries_iff_of_agrees {st st' : Stage} (h : st.agrees st') (w : BitVec 259) :
    st = { valid := true, data := w } ↔ st' = { valid := true, data := w } := by
  constructor
  · rintro rfl
    exact (Stage.eq_of_agrees h rfl).symm
  · rintro rfl
    exact (Stage.eq_of_agrees (Stage.agrees_symm h) rfl).symm

theorem stagesAgree_refl (l : List Stage) : stagesAgree l l := List.forall₂_same.mpr fun st _ => st.agrees_refl

theorem lineOut_agrees {l l' : List Stage} (h : stagesAgree l l') :
    ∀ {x x' : Stage}, x.agrees x' → (lineOut x l).agrees (lineOut x' l') := by
  induction h with
  | nil => exact id
  | cons hy _ ih =>
    intro x x' _
    rw [lineOut_cons, lineOut_cons]
    exact ih hy

theorem lineShift_agree {l l' : List Stage} (h : stagesAgree l l') :
    ∀ {x x' : Stage}, x.agrees x' → stagesAgree (lineShift x l) (lineShift x' l') := by
  induction h with
  | nil => exact fun _ => .nil
  | cons hy _ ih => exact fun hx => .cons hx (ih hy)

theorem clearValid_agree {l l' : List Stage} (h : stagesAgree l l') : stagesAgree (clearValid l) (clearValid l') := by
  induction h with
  | nil => exact .nil
  | cons _ _ ih => exact .cons ⟨rfl, nofun⟩ ih

/-- What was left of two pipelines that agree is equal once the data of invalid stages is forgotten. -/
theorem forgetInvalid_eq_of_agree {cycle : Nat} {l l' : List Stage} (h : stagesAgree l l') :
    ∀ k, forgetInvalid cycle k l = forgetInvalid cycle k l' := by
  induction h with
  | nil => intro k; rfl
  | @cons st st' _ _ hst _ ih =>
    intro k
    cases hv : st.valid with
    | true => rw [Stage.eq_of_agrees hst hv, forgetInvalid, forgetInvalid, ih]
    | false => simp [forgetInvalid, ← hst.1, hv, ih]

section agreeing

variable {s : State} {l : List Stage}

theorem State.leaving_of_agree (h : stagesAgree s.pipe l) (p : Ports) :
    ({ s with pipe := l } : State).leaving p = s.leaving p := by
  have hout := lineOut_agrees h (s.entering p).agrees_refl
  apply Option.ext
  intro w
  rw [State.leaving_eq_some_iff, State.leaving_eq_some_iff]
  exact and_congr_left' (Stage.carries_iff_of_agrees hout w).symm

theorem State.pipeAfter_of_agree (h : stagesAgree s.pipe l) (p : Ports) :
    ({ s with pipe := l } : State).pipeAfter p = s.pipeAfter p := by
  refine (forgetInvalid_eq_of_agree ?_ 0).symm
  change stagesAgree _ (if s.resetting p then clearValid l else lineShift (s.entering p) l)
  split
  · exact clearValid_agree h
  · exact lineShift_agree h (s.entering p).agrees_refl

/-- A clock cycle makes states equal that differ in the data of invalid stages alone. -/
theorem State.cycle_of_agree (h : stagesAgree s.pipe l) (p : Ports) :
    ({ s with pipe := l } : State).cycle p = s.cycle p := by
  have hedge : ({ s with pipe := l } : State).takeInput.clockEdge p = s.takeInput.clockEdge p :=
    congrArg (fun stages => { s.takeInput.clockEdge p with pipe := stages }) (State.pipeAfter_of_agree h p)
  rw [State.cycle, State.cycle, State.leaving_of_agree h, hedge]

end agreeing

/-- Settles O56: a host write leaves both pipelines as they are, and a clock cycle makes the two states equal. -/
theorem invalidStagesUnobservable : Obligations.InvalidStagesUnobservable := by
  rintro s s' ⟨hpipe, hs'⟩
  rw [hs']
  generalize s'.pipe = l at hpipe
  cases hn : s.nextInput with
  | writeRm v =>
    exact ⟨_, _, step_of_writeRm hn, step_of_writeRm (s := { s with pipe := l }) hn, hpipe, rfl⟩
  | writeNx v =>
    exact ⟨_, _, step_of_writeNx hn, step_of_writeNx (s := { s with pipe := l }) hn, hpipe, rfl⟩
  | clock p =>
    refine ⟨_, _, step_of_clock hn, step_of_clock (s := { s with pipe := l }) hn, ?_⟩
    rw [State.cycle_of_agree hpipe]
    exact ⟨stagesAgree_refl _, rfl⟩

end Sys2Proof.Machine

/-! ## Runs over the host's inputs -/

namespace Sys2Proof.Machine

/-- A property of a state and the inputs still to come that each step hands on holds at the end of a run over them. -/
theorem run_keeps {I : List Input → State → Prop}
    (hstep : ∀ {i l s t}, s.nextInput = i → step s = .next t → I (i :: l) s → I l t) (rest : List Input) :
    ∀ (l : List Input) (s : State), s.inputs = l ++ rest → I l s → ∃ t, core.run l.length s = .next t ∧ I [] t := by
  intro l
  induction l with
  | nil => exact fun s _ hI => ⟨s, core_run_zero s, hI⟩
  | cons i l ih =>
    intro s hin hI
    obtain ⟨s', hs'⟩ := step_answers s
    have hin' : s'.inputs = l ++ rest := by rw [step_inputs hs', hin, List.cons_append, List.tail_cons]
    obtain ⟨t, ht, hIt⟩ := ih s' hin' (hstep (State.nextInput_of_cons hin) hs' hI)
    exact ⟨t, (core_run_succ hs' l.length).trans ht, hIt⟩

@[simp] theorem clockCount_nil : clockCount [] = 0 := rfl

@[simp] theorem clockCount_clock (p : Ports) (l : List Input) : clockCount (.clock p :: l) = clockCount l + 1 :=
  List.countP_cons_of_pos rfl

@[simp] theorem clockCount_writeRm (v : BitVec 2) (l : List Input) : clockCount (.writeRm v :: l) = clockCount l :=
  List.countP_cons_of_neg Bool.false_ne_true

@[simp] theorem clockCount_writeNx (v : Bool) (l : List Input) : clockCount (.writeNx v :: l) = clockCount l :=
  List.countP_cons_of_neg Bool.false_ne_true

/-- A step that is no clock cycle leaves the pipeline and the delay line as they are. -/
theorem step_cases_lines {s t : State} (h : step s = .next t) :
    ((∀ l, clockCount (s.nextInput :: l) = clockCount l) ∧ t.pipe = s.pipe ∧ t.rmLine = s.rmLine) ∨
    ∃ p, s.nextInput = .clock p ∧ t = s.cycle p := by
  rcases step_cases_cycle h with ⟨v, hv, rfl⟩ | ⟨v, hv, rfl⟩ | hclock
  · exact .inl ⟨hv ▸ clockCount_writeRm v, rfl, rfl⟩
  · exact .inl ⟨hv ▸ clockCount_writeNx v, rfl, rfl⟩
  · exact .inr hclock

theorem endsInClock_tail {i : Input} {l : List Input} (h : endsInClock (i :: l)) : endsInClock l := by
  intro j hj
  apply h
  rw [List.getLast?_cons, hj, Option.getD_some]

/-- Inputs that end with a clock cycle and hold none are no inputs. -/
theorem eq_nil_of_endsInClock {l : List Input} (h : endsInClock l) (hcount : clockCount l = 0) : l = [] := by
  by_contra hne
  have hlast := List.getLast?_eq_some_getLast hne
  obtain ⟨q, hq⟩ := h _ hlast
  have hmem : Input.clock q ∈ l := List.mem_of_getLast? (hlast.trans (congrArg some hq))
  exact absurd rfl (List.countP_eq_zero.mp hcount _ hmem)

end Sys2Proof.Machine

/-! ## Port `rm` (R21, R97, I16) -/

namespace Sys2Proof.Machine

/-- A value of FPENV.RM stands in the delay line of a unit with an FPENV, as far from its end as the inputs still to come
hold clock cycles. -/
def onItsWay (v : BitVec 2) (l : List Input) (s : State) : Prop :=
  s.cfg.hasFpenv = true ∧ ∃ j, s.rmLine[j]? = some v ∧ clockCount l + j + 1 = s.rmLine.length

theorem onItsWay_step {v : BitVec 2} {i : Input} {l : List Input} {s t : State} (hi : s.nextInput = i)
    (h : step s = .next t) (hI : onItsWay v (i :: l) s) : onItsWay v l t := by
  obtain ⟨hf, j, hj, hcount⟩ := hI
  refine ⟨step_cfg h ▸ hf, ?_⟩
  rcases step_cases_lines h with ⟨hwrite, -, hline⟩ | ⟨p, hp, rfl⟩
  · rw [← hi, hwrite] at hcount
    exact ⟨j, hline ▸ hj, hline ▸ hcount⟩
  · rw [← hi, hp, clockCount_clock] at hcount
    refine ⟨j + 1, ?_, ?_⟩
    · rw [State.cycle_rmLine, lineShift_getElem?_succ _ _ _ (by omega), hj]
    · rw [State.cycle_rmLine, lineShift_length]
      omega

/-- The first clock cycle puts FPENV.RM into the delay line. -/
theorem onItsWay_cycle {s : State} (hf : s.cfg.hasFpenv = true) (p : Ports) {l : List Input}
    (hcount : clockCount l + 1 = s.rmLine.length) : onItsWay (fpenvRm s.fpenv) l (s.cycle p) := by
  refine ⟨by rw [State.cycle_cfg, hf], 0, ?_, ?_⟩
  · rw [State.cycle_rmLine, lineShift_getElem?_zero _ (by omega)]
  · rw [State.cycle_rmLine, lineShift_length, Nat.add_zero, hcount]

theorem portRm_of_onItsWay {v : BitVec 2} {s : State} (h : onItsWay v [] s) : s.portRm = v := by
  obtain ⟨hf, j, hj, hcount⟩ := h
  rw [clockCount_nil] at hcount
  have hlast : s.rmLine.length - 1 = j := by omega
  rw [State.portRm_with hf, lineOut_of_getElem? _ (hlast ▸ hj)]

/-- Settles O59: the first clock cycle takes FPENV.RM into the delay line, and each later one moves it one register on. -/
theorem portRmCarriesFpenvRm : Obligations.PortRmCarriesFpenvRm := by
  intro s hs hf
  refine ⟨fun hd => ?_, fun p later rest hin hcount => ?_⟩
  · rw [State.portRm_with hf, List.eq_nil_of_length_eq_zero (hs.rmLine_length.trans hd), lineOut_nil]
  · have hstep := step_of_clock (State.nextInput_of_cons hin)
    have hrest : (s.cycle p).inputs = later ++ rest := by rw [State.cycle_inputs, hin, List.tail_cons]
    have hentered := onItsWay_cycle hf p (hcount.trans hs.rmLine_length.symm)
    obtain ⟨t, ht, hend⟩ := run_keeps onItsWay_step rest later _ hrest hentered
    exact ⟨t, (core_run_succ hstep later.length).trans ht, portRm_of_onItsWay hend⟩

end Sys2Proof.Machine

/-! ## A request's way through the pipeline (R19, R97, R99) -/

namespace Sys2Proof.Machine

/-- No input is a clock cycle with `rst = 1`. -/
def resetFree (l : List Input) : Prop := ∀ q, .clock q ∈ l → q.rst = false

/-- The output ports present the response to request `w`. -/
def State.presents (s : State) (w : BitVec 259) : Prop :=
  s.outValid = true ∧ ({ result := s.result, nx := s.nx } : Response) = answerOf (decodeRequest w)

/-- The inputs still to come hold no reset and end with a clock cycle; request `w` stands in the pipeline, as many stages
from its end as they hold clock cycles, or there are none and its response is presented. -/
def awaited (w : BitVec 259) (l : List Input) (s : State) : Prop :=
  resetFree l ∧ endsInClock l ∧
    ((∃ j, s.pipe[j]? = some { valid := true, data := w } ∧ clockCount l + j = s.pipe.length) ∨
      (l = [] ∧ s.presents w))

theorem lineShift_getElem? {α : Type} (x : α) (l : List α) {j : Nat} (h : j < l.length) :
    (lineShift x l)[j]? = (x :: l)[j]? := by
  rw [lineShift, List.getElem?_dropLast, if_pos (by simpa using h)]

theorem lineOut_eq_getElem? {α : Type} (x : α) (l : List α) : (x :: l)[l.length]? = some (lineOut x l) := by
  rw [lineOut, List.getLast_eq_getElem]
  simp

theorem State.presents_cycle {s : State} {p : Ports} {w : BitVec 259} (h : s.leaving p = some w) :
    (s.cycle p).presents w := by
  rw [State.cycle_of_leaving h]
  exact ⟨rfl, rfl⟩

/-- A clock edge without reset moves a request one stage on, or out of the last one (R19). -/
theorem awaited_cycle {w : BitVec 259} {l : List Input} {s : State} {p : Ports} {j : Nat}
    (hreset : s.resetting p = false) (hj : (s.entering p :: s.pipe)[j]? = some { valid := true, data := w })
    (hcount : clockCount l + j = s.pipe.length) (hfree : resetFree l) (hend : endsInClock l) :
    awaited w l (s.cycle p) := by
  refine ⟨hfree, hend, ?_⟩
  by_cases hlast : j = s.pipe.length
  · have hout : lineOut (s.entering p) s.pipe = { valid := true, data := w } := by
      rw [hlast, lineOut_eq_getElem?] at hj
      exact Option.some.inj hj
    have hnil : l = [] := eq_nil_of_endsInClock hend (by omega)
    exact .inr ⟨hnil, State.presents_cycle ((s.leaving_eq_some_iff p w).mpr ⟨hout, hreset⟩)⟩
  · refine .inl ⟨j, ?_, ?_⟩
    · rw [State.cycle_pipe, State.pipeAfter, hreset, if_neg Bool.false_ne_true]
      apply forgetInvalid_getElem? rfl
      rw [lineShift_getElem? _ _ (by omega), hj]
    · rw [State.cycle_pipe, State.pipeAfter_length, hcount]

theorem awaited_step {w : BitVec 259} {i : Input} {l : List Input} {s t : State} (hi : s.nextInput = i)
    (h : step s = .next t) (hI : awaited w (i :: l) s) : awaited w l t := by
  obtain ⟨hfree, hend, ⟨j, hj, hcount⟩ | ⟨hnil, -⟩⟩ := hI
  · have hfree' : resetFree l := fun q hq => hfree q (List.mem_cons_of_mem i hq)
    rcases step_cases_lines h with ⟨hwrite, hpipe, -⟩ | ⟨p, hp, rfl⟩
    · rw [← hi, hwrite] at hcount
      exact ⟨hfree', endsInClock_tail hend, .inl ⟨j, hpipe ▸ hj, hpipe ▸ hcount⟩⟩
    · rw [← hi, hp] at hcount hfree
      have hreset : s.resetting p = false := by
        rw [State.resetting, hfree p List.mem_cons_self, Bool.false_and]
      rw [clockCount_clock] at hcount
      refine awaited_cycle (j := j + 1) hreset hj ?_ hfree' (endsInClock_tail hend)
      omega
  · cases hnil

theorem presents_of_awaited {w : BitVec 259} {s : State} (h : awaited w [] s) : s.presents w := by
  obtain ⟨-, -, ⟨j, hj, hcount⟩ | ⟨-, h⟩⟩ := h
  · have hlt : j < s.pipe.length := (List.getElem?_eq_some_iff.mp hj).1
    rw [clockCount_nil] at hcount
    omega
  · exact h

/-- Settles O54: the accepted request enters the line of stages, each later clock cycle moves it one stage on, and the last
one presents its response. -/
theorem responseAfterLatency : Obligations.ResponseAfterLatency := by
  intro s p later rest hs hin hacc hfree hcount hend
  have hreset : s.resetting p = false := by
    rw [State.accepts, Bool.and_eq_true, Bool.not_eq_true'] at hacc
    exact hacc.2
  have hstep := step_of_clock (State.nextInput_of_cons hin)
  have hrest : (s.cycle p).inputs = later ++ rest := by rw [State.cycle_inputs, hin, List.tail_cons]
  have hfirst : (s.entering p :: s.pipe)[0]? = some { valid := true, data := s.sampled p } := by
    rw [List.getElem?_cons_zero, State.entering, hacc]
  have hentered := awaited_cycle hreset hfirst (hcount.trans hs.pipe_length.symm) hfree hend
  obtain ⟨t, ht, hlast⟩ := run_keeps awaited_step rest later _ hrest hentered
  exact ⟨t, (core_run_succ hstep later.length).trans ht, presents_of_awaited hlast⟩

end Sys2Proof.Machine

/-! ## The transaction level (R33, R100) -/

namespace Sys2Proof.Machine

/-- The requests that a line of stages holds, the one nearest its end first. -/
def requestsOf (l : List Stage) : List (BitVec 259) := ((l.filter (·.valid)).map (·.data)).reverse

theorem State.inFlight_eq_requestsOf (s : State) : s.inFlight = requestsOf s.pipe := rfl

theorem requestsOf_append (l l' : List Stage) : requestsOf (l ++ l') = requestsOf l' ++ requestsOf l := by
  simp [requestsOf]

theorem requestsOf_cons (x : Stage) (l : List Stage) : requestsOf (x :: l) = requestsOf l ++ requestsOf [x] :=
  requestsOf_append [x] l

theorem requestsOf_singleton (st : Stage) : requestsOf [st] = if st.valid then [st.data] else [] := by
  cases hv : st.valid <;> simp [requestsOf, hv]

/-- A clock edge loses, repeats and reorders no request: the one that leaves and those that stay are those that stood in the
line and, after them, the one that enters. -/
theorem requestsOf_lineShift (x : Stage) (l : List Stage) :
    requestsOf [lineOut x l] ++ requestsOf (lineShift x l) = requestsOf l ++ requestsOf [x] := by
  rw [← requestsOf_append, lineShift_append_lineOut, requestsOf_cons]

section cycle

variable {s : State} {p : Ports}

theorem State.requestsOf_entering (hr : s.resetting p = false) :
    requestsOf [s.entering p] = if p.inValid then [s.sampled p] else [] := by
  rw [requestsOf_singleton, State.entering, State.accepts, hr, Bool.not_false, Bool.and_true]

theorem State.requestsOf_leaving (hr : s.resetting p = false) :
    requestsOf [lineOut (s.entering p) s.pipe] = (s.leaving p).toList := by
  rw [requestsOf_singleton, State.leaving, hr, Bool.not_false, Bool.and_true]
  cases (lineOut (s.entering p) s.pipe).valid <;> rfl

/-- The request answered in a cycle without reset, if there is one, and those in flight after it are those in flight before
it and the one accepted (R19, R100). -/
theorem State.leaving_append_inFlight_cycle (hr : s.resetting p = false) :
    (s.leaving p).toList ++ (s.cycle p).inFlight = s.inFlight ++ if p.inValid then [s.sampled p] else [] := by
  have hafter : (s.cycle p).inFlight = requestsOf (lineShift (s.entering p) s.pipe) := by
    rw [State.inFlight_cycle, hr, if_neg Bool.false_ne_true, requestsOf]
  rw [hafter, ← State.requestsOf_leaving hr, requestsOf_lineShift, State.requestsOf_entering hr,
    State.inFlight_eq_requestsOf]

end cycle

/-- The transaction-level state once the host's request in a cycle, if there is one, is appended (R100). -/
def State.offered (s : State) (p : Ports) : Transactions :=
  if p.inValid then s.transactions.append (s.sampled p) else s.transactions

theorem State.offered_eq (s : State) (p : Ports) :
    s.offered p =
      { s.transactions with inFlight := s.inFlight ++ if p.inValid then [s.sampled p] else [] } := by
  cases hv : p.inValid <;> simp [State.offered, State.transactions, Transactions.append, hv]

theorem Transactions.answer_of_oldest {τ : Transactions} {w : BitVec 259} {rest : List (BitVec 259)} (has : Bool)
    (h : τ.inFlight = w :: rest) :
    τ.answer has = some (answerOf (decodeRequest w),
      { τ with nx := τ.nx || (has && (answerOf (decodeRequest w)).nx), inFlight := rest }) := by
  rw [Transactions.answer, h]

/-- A cycle without a response appends the accepted request and does nothing else at the transaction level. -/
theorem State.cycle_transactions_of_not_leaving {s : State} {p : Ports} (hr : s.resetting p = false)
    (h : s.leaving p = none) : (s.cycle p).transactions = s.offered p := by
  have hflight := State.leaving_append_inFlight_cycle hr
  rw [h, Option.toList_none, List.nil_append] at hflight
  rw [State.offered_eq, ← hflight, State.transactions, State.cycle_of_not_leaving h]
  rfl

/-- A cycle with a response is one step of the block of R100, after the accepted request is appended: with `LATENCY = 0`
the oldest request is the one accepted. -/
theorem State.answer_offered_of_leaving {s : State} {p : Ports} {w : BitVec 259} (hr : s.resetting p = false)
    (h : s.leaving p = some w) :
    (s.offered p).answer s.cfg.hasFpenv = some (answerOf (decodeRequest w), (s.cycle p).transactions) := by
  have hflight := State.leaving_append_inFlight_cycle hr
  rw [h, Option.toList_some, List.singleton_append] at hflight
  have hfpenv : (s.cycle p).fpenv = raiseInexact s.cfg.hasFpenv (answerOf (decodeRequest w)).nx s.fpenv := by
    rw [State.cycle_of_leaving h]
    rfl
  rw [State.offered_eq, ← hflight, Transactions.answer_of_oldest _ rfl]
  simp [State.transactions, hfpenv]

/-- Settles O55, by whether a request leaves the pipeline. -/
theorem cycleRefinesTransactions : Obligations.CycleRefinesTransactions := by
  intro s p _ hp hr
  refine ⟨s.cycle p, step_of_clock hp, ?_⟩
  cases hw : s.leaving p with
  | none =>
    refine .inl ⟨?_, State.cycle_transactions_of_not_leaving hr hw⟩
    rw [State.cycle_outValid, hw, Option.isSome_none]
  | some w =>
    obtain ⟨hvalid, hresponse⟩ := State.presents_cycle hw
    refine .inr ⟨hvalid, ?_⟩
    rw [hresponse]
    exact State.answer_offered_of_leaving hr hw

end Sys2Proof.Machine

/-! ## A pattern in a host's memory (R29, R30, I6) -/

namespace Sys2Proof.Machine

@[simp] theorem hostBytes_length (o : ByteOrder) (v : Word) : (hostBytes o v).length = 16 := by
  cases o <;> simp [hostBytes]

theorem hostBytes_big (v : Word) : hostBytes .big v = (hostBytes .little v).reverse := rfl

theorem hostBytes_little_getElem? (v : Word) {i : Nat} (h : i < 16) :
    (hostBytes .little v)[i]? = some (v.extractLsb' (8 * i) 8) := by
  simp [hostBytes, List.getElem?_range h]

theorem hostBytes_big_getElem? (v : Word) {i : Nat} (h : i < 16) :
    (hostBytes .big v)[15 - i]? = some (v.extractLsb' (8 * i) 8) := by
  have hplace : (hostBytes .little v).length - 1 - (15 - i) = i := by
    rw [hostBytes_length]
    omega
  have hlt : 15 - i < (hostBytes .little v).length := by
    rw [hostBytes_length]
    omega
  rw [hostBytes_big, List.getElem?_reverse hlt, hplace, hostBytes_little_getElem? v h]

/-! ### Bytes and patterns -/

/-- A byte of a pattern stands below the rest of it. -/
theorem shiftLeft_or_byte (v : Word) (k : Nat) :
    (v >>> (8 * (k + 1))) <<< 8 ||| (v.extractLsb' (8 * k) 8).zeroExtend 128 = v >>> (8 * k) := by
  ext i hi
  by_cases h8 : i < 8
  · simp [h8]
  · have hplace : 8 * (k + 1) + (i - 8) = 8 * k + i := by omega
    simp [h8, hplace]

/-- The bytes of a pattern from byte `k` to its last one are those of the pattern shifted right by `k` bytes. -/
theorem patternOfLittle_bytesFrom (v : Word) (n : Nat) :
    ∀ k, k + n = 16 →
      patternOfLittle ((List.range' k n).map fun i => v.extractLsb' (8 * i) 8) = v >>> (8 * k) := by
  induction n with
  | zero =>
    intro k hk
    rw [BitVec.ushiftRight_eq_zero (by omega)]
    rfl
  | succ n ih =>
    intro k hk
    rw [List.range'_succ, List.map_cons, patternOfLittle, ih (k + 1) (by omega), shiftLeft_or_byte]

theorem patternOfLittle_hostBytes (v : Word) : patternOfLittle (hostBytes .little v) = v := by
  rw [hostBytes, List.range_eq_range', patternOfLittle_bytesFrom v 16 0 rfl]
  exact BitVec.ushiftRight_zero v

theorem patternOfBytes_hostBytes (o : ByteOrder) (v : Word) : patternOfBytes o (hostBytes o v) = v := by
  cases o with
  | little => exact patternOfLittle_hostBytes v
  | big =>
    rw [patternOfBytes, hostBytes_big, List.reverse_reverse, patternOfLittle_hostBytes]

/-! ### Bytes and cells -/

/-- The cells that hold bytes at consecutive addresses from `addr` on. -/
def cellsFrom (addr : Nat) (bytes : List (BitVec 8)) : List Host.Cell :=
  (List.range' addr bytes.length).zip bytes

theorem cellsFrom_cons (addr : Nat) (b : BitVec 8) (bs : List (BitVec 8)) :
    cellsFrom addr (b :: bs) = (addr, b) :: cellsFrom (addr + 1) bs := rfl

theorem cellsFrom_length (addr : Nat) (bytes : List (BitVec 8)) : (cellsFrom addr bytes).length = bytes.length := by
  simp [cellsFrom]

theorem cellsFrom_lookup (bytes : List (BitVec 8)) :
    ∀ addr i, (cellsFrom addr bytes).lookup (addr + i) = bytes[i]? := by
  induction bytes with
  | nil => intro addr i; rfl
  | cons b bs ih =>
    intro addr i
    rw [cellsFrom_cons, List.lookup_cons]
    cases i with
    | zero => simp
    | succ i =>
      have hne : (addr + (i + 1) == addr) = false := beq_eq_false_iff_ne.mpr (by omega)
      have haddr : addr + (i + 1) = addr + 1 + i := by omega
      rw [hne, haddr, ih, List.getElem?_cons_succ]

/-- A memory that holds bytes at consecutive addresses gives them back. -/
theorem hostBytesAt_of_lookup {mem : List Host.Cell} (bytes : List (BitVec 8)) :
    ∀ addr, (∀ i < bytes.length, mem.lookup (addr + i) = bytes[i]?) →
      hostBytesAt mem addr bytes.length = some bytes := by
  induction bytes with
  | nil => intro addr _; rfl
  | cons b bs ih =>
    intro addr h
    have hfirst : mem.lookup addr = some b := h 0 (Nat.succ_pos _)
    have hrest : hostBytesAt mem (addr + 1) bs.length = some bs := by
      apply ih
      intro i hi
      rw [Nat.add_assoc, Nat.add_comm 1 i, h (i + 1) (Nat.succ_lt_succ hi), List.getElem?_cons_succ]
    rw [List.length_cons, hostBytesAt, hfirst, hrest]

/-! ### Stores and loads -/

theorem hostStore_of_aligned (o : ByteOrder) {addr : Nat} (v : Word) (h : addr % 16 = 0) :
    hostStore o addr v = .ok (cellsFrom addr (hostBytes o v)) := by
  rw [hostStore, if_pos h, cellsFrom, hostBytes_length, List.range'_eq_map_range]

theorem hostStore_of_misaligned (o : ByteOrder) {addr : Nat} (v : Word) (h : addr % 16 ≠ 0) :
    hostStore o addr v = .error .misaligned := if_neg h

theorem hostLoad_of_misaligned (o : ByteOrder) {addr : Nat} (mem : List Host.Cell) (h : addr % 16 ≠ 0) :
    hostLoad o mem addr = .error .misaligned := if_neg h

theorem hostLoad_of_bytes (o : ByteOrder) {mem : List Host.Cell} {addr : Nat} {bytes : List (BitVec 8)}
    (h : addr % 16 = 0) (hbytes : hostBytesAt mem addr 16 = some bytes) :
    hostLoad o mem addr = .ok (patternOfBytes o bytes) := by
  rw [hostLoad, if_pos h, hbytes]

theorem hostLoad_cellsFrom_hostBytes (o : ByteOrder) {addr : Nat} (v : Word) (h : addr % 16 = 0) :
    hostLoad o (cellsFrom addr (hostBytes o v)) addr = .ok v := by
  have hbytes := hostBytesAt_of_lookup (hostBytes o v) addr fun i _ => cellsFrom_lookup (hostBytes o v) addr i
  rw [hostBytes_length] at hbytes
  rw [hostLoad_of_bytes o h hbytes, patternOfBytes_hostBytes]

/-- Settles O58: the cells hold the bytes in the order of the host, and the load puts together what the store took apart. -/
theorem hostImageRoundTrip : Obligations.HostImageRoundTrip := by
  refine fun o addr v => ⟨fun h => ?_, fun h => ⟨hostStore_of_misaligned o v h, (hostLoad_of_misaligned o · h)⟩⟩
  refine ⟨_, hostStore_of_aligned o v h, ?_, hostLoad_cellsFrom_hostBytes o v h, fun i hi => ?_⟩
  · rw [cellsFrom_length, hostBytes_length]
  · cases o with
    | little => exact (cellsFrom_lookup ..).trans (hostBytes_little_getElem? v hi)
    | big =>
      have haddr : addr + 15 - i = addr + (15 - i) := by omega
      change (cellsFrom addr (hostBytes .big v)).lookup (addr + 15 - i) = _
      rw [haddr, cellsFrom_lookup, hostBytes_big_getElem? v hi]

end Sys2Proof.Machine

/-! ## Request words (R39 to R42) -/

namespace Sys2Proof

@[simp] theorem RoundingMode.code_ofCode : ∀ c : BitVec 2, (RoundingMode.ofCode c).code = c := by decide

theorem decodeRequest_encode (i : Instr) : decodeRequest (encode i) = i := by
  cases i <;> simp [encode, decodeRequest]

theorem decode_toNat (w : BitVec 259) : decode w.toNat = .ok (decodeRequest w) := by
  rw [decode_of_lt w.isLt, BitVec.ofNat_toNat, BitVec.setWidth_eq]

/-- Settles O1: each field read from a request word is the one put into it, and the number of a word denotes what the
word does. -/
theorem decodeInvertsEncode : Obligations.DecodeInvertsEncode :=
  fun i => ⟨decodeRequest_encode i, by rw [decode_toNat, decodeRequest_encode]⟩

theorem decodeRequest_of_op_zero {w : BitVec 259} (h : requestOp w = 0#1) :
    decodeRequest w = .add (.ofCode (requestRm w)) (requestA w) (requestB w) := if_pos h

theorem decodeRequest_of_op_one {w : BitVec 259} (h : requestOp w = 1#1) :
    decodeRequest w = .sub (.ofCode (requestRm w)) (requestA w) (requestB w) :=
  if_neg (by rw [h]; decide)

/-- Settles O2: the encoder puts together again the fields that the decoder took apart, bit 258 first. -/
theorem encodeInvertsDecode : Obligations.EncodeInvertsDecode := by
  intro w
  rcases BitVec.eq_zero_or_eq_one (requestOp w) with h | h
  · rw [decodeRequest_of_op_zero h, encode, RoundingMode.code_ofCode, ← h, requestWord_fields]
  · rw [decodeRequest_of_op_one h, encode, RoundingMode.code_ofCode, ← h, requestWord_fields]

/-- A concatenation as a number. -/
theorem append_toNat {m n : Nat} (x : BitVec m) (y : BitVec n) : (x ++ y).toNat = x.toNat * 2 ^ n + y.toNat := by
  rw [BitVec.toNat_append, ← Nat.shiftLeft_add_eq_or_of_lt y.isLt, Nat.shiftLeft_eq]

theorem requestWord_toNat (op : BitVec 1) (rm : BitVec 2) (a b : Word) :
    (requestWord op rm a b).toNat = op.toNat * 2 ^ 258 + rm.toNat * 2 ^ 256 + a.toNat * 2 ^ 128 + b.toNat := by
  rw [requestWord, append_toNat, append_toNat, append_toNat]
  simp only [Nat.add_mul, Nat.mul_assoc, ← Nat.pow_add, Nat.reduceAdd]

theorem requestOp_eq_ofBool (w : BitVec 259) : requestOp w = BitVec.ofBool (w.getLsbD 258) := by
  apply BitVec.eq_of_getLsbD_eq
  intro i hi
  obtain rfl : i = 0 := by omega
  simp [requestOp]

/-- Bit 258 alone selects the row of the opcode map (R41). -/
theorem decodeRequest_row (w : BitVec 259) :
    ((∃ rm a b, decodeRequest w = .add rm a b) ↔ w.getLsbD 258 = false) ∧
    ((∃ rm a b, decodeRequest w = .sub rm a b) ↔ w.getLsbD 258 = true) := by
  have hop := requestOp_eq_ofBool w
  cases hbit : w.getLsbD 258 with
  | false => simp [decodeRequest_of_op_zero (w := w) (by rw [hop, hbit]; rfl)]
  | true => simp [decodeRequest_of_op_one (w := w) (by rw [hop, hbit]; rfl)]

/-- Settles O3: a concatenation is a sum of shifted fields, and the decoder branches on bit 258. -/
theorem requestWordLayout : Obligations.RequestWordLayout :=
  ⟨fun rm a b => ⟨requestWord_toNat 0#1 rm.code a b, requestWord_toNat 1#1 rm.code a b⟩,
    decodeRequest_row⟩

/-- Settles O4, on the four codes. -/
theorem roundingModeCodes : Obligations.RoundingModeCodes :=
  ⟨rfl, rfl, rfl, rfl, RoundingMode.code_ofCode⟩

/-- Settles O5: a number of 259 bits is a request word, and every request is answered. -/
theorem noRequestIsIllegal : Obligations.NoRequestIsIllegal :=
  fun _ h => ⟨_, decode_of_lt h, fun s => ⟨_, Machine.exec_eq_present _ s⟩⟩

/-- Settles O6, by reading the fields of the two words. -/
theorem wordsWrittenFromTheSpec : Obligations.WordsWrittenFromTheSpec := by
  unfold Obligations.WordsWrittenFromTheSpec
  decide

end Sys2Proof

namespace Sys2Proof.Machine

/-- Settles O57: both operands have values, and the mnemonic chooses the constructor. -/
theorem assembledLineEncodes : Obligations.AssembledLineEncodes := by
  intro results l x y hx hy
  rw [AsmLine.assemble, hx, hy]
  cases l.op <;> rfl

end Sys2Proof.Machine

/-! ## The constants of the format (R36) and the classes of patterns (R37) -/

namespace Sys2Proof.Machine

/-- Settles O7, on the constants themselves. -/
theorem constantsMatchTheirDefinitions : Obligations.ConstantsMatchTheirDefinitions := by
  unfold Obligations.ConstantsMatchTheirDefinitions
  decide

theorem sigField_eq_zero_iff (x : Word) : sigField x = 0#128 ↔ (sigField x).toNat = 0 :=
  BitVec.toNat_inj.symm

theorem sigField_lt (x : Word) : (sigField x).toNat < 2 ^ 112 := by
  rw [sigField_toNat]
  exact Nat.mod_lt _ (Nat.two_pow_pos 112)

theorem expField_le (x : Word) : expField x ≤ 32767 := by
  rw [expField_eq]
  omega

theorem getLsbD_sigField_quiet (x : Word) : (sigField x).getLsbD 111 = x.getLsbD 111 := by
  simp [sigField, significandMask]

/-- The quiet bit is the highest bit of the significand field (R35, R36). -/
theorem getLsbD_quiet_iff (x : Word) : x.getLsbD 111 = true ↔ 2 ^ 111 ≤ (sigField x).toNat := by
  rw [sigField_toNat, ← BitVec.testBit_toNat, Nat.testBit_eq_decide_div_mod_eq, decide_eq_true_iff]
  omega

/-- The test of one bit with a mask. -/
theorem and_twoPow_ne_zero_iff (x : Word) {i : ℕ} (hi : i < 128) :
    x &&& BitVec.twoPow 128 i ≠ 0#128 ↔ x.getLsbD i = true := by
  have hne : BitVec.twoPow 128 i ≠ 0#128 := by
    rw [← BitVec.toNat_ne_iff_ne, BitVec.toNat_twoPow_of_lt hi]
    exact (Nat.two_pow_pos i).ne'
  rw [BitVec.and_twoPow]
  cases x.getLsbD i <;> simp [hne]

theorem and_quietBit_ne_zero_iff (x : Word) : x &&& quietBit ≠ 0#128 ↔ x.getLsbD 111 = true := by
  have hquiet : quietBit = BitVec.twoPow 128 111 := by decide
  rw [hquiet, and_twoPow_ne_zero_iff x (by decide)]

/-! ### The classes by their fields -/

theorem isZero_iff (x : Word) : isZero x = true ↔ expField x = 0 ∧ sigField x = 0#128 := by
  simp [isZero]

theorem isDenormal_iff (x : Word) : isDenormal x = true ↔ expField x = 0 ∧ sigField x ≠ 0#128 := by
  simp [isDenormal]

theorem isNormal_iff (x : Word) : isNormal x = true ↔ 1 ≤ expField x ∧ expField x ≤ 32766 := by
  simp [isNormal]

theorem isInfinite_iff (x : Word) : isInfinite x = true ↔ expField x = 32767 ∧ sigField x = 0#128 := by
  simp [isInfinite]

theorem isQuietNaN_iff (x : Word) : isQuietNaN x = true ↔ expField x = 32767 ∧ x.getLsbD 111 = true := by
  rw [isQuietNaN, getLsbD_sigField_quiet, Bool.and_eq_true, beq_iff_eq]

theorem isSignalingNaN_iff (x : Word) :
    isSignalingNaN x = true ↔ expField x = 32767 ∧ sigField x ≠ 0#128 ∧ x.getLsbD 111 = false := by
  rw [isSignalingNaN, getLsbD_sigField_quiet, Bool.and_eq_true, Bool.and_eq_true, beq_iff_eq, bne_iff_ne,
    Bool.not_eq_true', and_assoc]

/-! ### The classes by their magnitude -/

theorem isZero_iff_absBits (x : Word) : isZero x = true ↔ absBits x = 0#128 := by
  have hm := sigField_lt x
  rw [isZero_iff, sigField_eq_zero_iff, ← BitVec.toNat_inj, absBits_eq_fields, BitVec.toNat_zero]
  omega

theorem isDenormal_iff_absBits (x : Word) : isDenormal x = true ↔ 0#128 < absBits x ∧ absBits x < implicitBit := by
  have hm := sigField_lt x
  rw [isDenormal_iff, Ne, sigField_eq_zero_iff, BitVec.lt_def, BitVec.lt_def, absBits_eq_fields, BitVec.toNat_zero,
    implicitBit_toNat]
  omega

theorem isNormal_iff_absBits (x : Word) : isNormal x = true ↔ implicitBit ≤ absBits x ∧ absBits x < infRep := by
  have hm := sigField_lt x
  rw [isNormal_iff, BitVec.le_def, BitVec.lt_def, absBits_eq_fields, implicitBit_toNat, infRep_toNat]
  omega

theorem isInfinite_iff_absBits (x : Word) : isInfinite x = true ↔ absBits x = infRep := by
  have hm := sigField_lt x
  rw [isInfinite_iff, sigField_eq_zero_iff, ← BitVec.toNat_inj, absBits_eq_fields, infRep_toNat]
  omega

/-- The magnitudes beyond the infinity are the NaNs (R37). -/
theorem infRep_lt_absBits_iff (x : Word) : infRep < absBits x ↔ expField x = 32767 ∧ sigField x ≠ 0#128 := by
  have hm := sigField_lt x
  have he := expField_le x
  rw [Ne, sigField_eq_zero_iff, BitVec.lt_def, absBits_eq_fields, infRep_toNat]
  omega

/-- A pattern with the quiet bit set has a significand field that is not 0. -/
theorem sigField_ne_zero_of_quiet {x : Word} (h : x.getLsbD 111 = true) : sigField x ≠ 0#128 := by
  have hle := (getLsbD_quiet_iff x).mp h
  rw [Ne, sigField_eq_zero_iff]
  omega

theorem isQuietNaN_iff_absBits (x : Word) :
    isQuietNaN x = true ↔ infRep < absBits x ∧ x &&& quietBit ≠ 0#128 := by
  rw [isQuietNaN_iff, infRep_lt_absBits_iff, and_quietBit_ne_zero_iff]
  exact ⟨fun ⟨he, hq⟩ => ⟨⟨he, sigField_ne_zero_of_quiet hq⟩, hq⟩, fun ⟨⟨he, _⟩, hq⟩ => ⟨he, hq⟩⟩

theorem isSignalingNaN_iff_absBits (x : Word) :
    isSignalingNaN x = true ↔ infRep < absBits x ∧ x &&& quietBit = 0#128 := by
  have hquiet := not_congr (and_quietBit_ne_zero_iff x)
  rw [not_not, Bool.not_eq_true] at hquiet
  rw [isSignalingNaN_iff, infRep_lt_absBits_iff, hquiet, and_assoc]

/-- Every pattern is in exactly one class (R37): the exponent field is 0, 32767 or between, and in the first two cases
the significand field, and for a NaN the quiet bit, tells the classes apart. -/
theorem exactly_one_class (x : Word) :
    [isZero x, isDenormal x, isNormal x, isInfinite x, isQuietNaN x, isSignalingNaN x].count true = 1 := by
  have he := expField_le x
  obtain h0 | hmid | hmax : expField x = 0 ∨ (1 ≤ expField x ∧ expField x ≤ 32766) ∨ expField x = 32767 := by omega
  · cases hm : sigField x == 0#128 <;>
      simp [isZero, isDenormal, isNormal, isInfinite, isQuietNaN, isSignalingNaN, bne, h0, hm]
  · have hne0 : expField x ≠ 0 := by omega
    have hne : expField x ≠ 32767 := by omega
    simp [isZero, isDenormal, isNormal, isInfinite, isQuietNaN, isSignalingNaN, hne0, hne, hmid]
  · cases hq : x.getLsbD 111 with
    | true =>
      have hm : (sigField x == 0#128) = false := beq_false_of_ne (sigField_ne_zero_of_quiet hq)
      simp only [isZero, isDenormal, isNormal, isInfinite, isQuietNaN, isSignalingNaN, getLsbD_sigField_quiet, bne,
        hmax, hm, hq]
      decide
    | false =>
      simp only [isZero, isDenormal, isNormal, isInfinite, isQuietNaN, isSignalingNaN, getLsbD_sigField_quiet, bne,
        hmax, hq]
      cases sigField x == 0#128 <;> decide

/-- Settles O8: the magnitude pattern is the exponent field times `2^112` plus the significand field, so a bound on
the one is a condition on the others. -/
theorem classesOfPatterns : Obligations.ClassesOfPatterns :=
  fun x => ⟨isZero_iff x, isZero_iff_absBits x, isDenormal_iff x, isDenormal_iff_absBits x, isNormal_iff x,
    isNormal_iff_absBits x, isInfinite_iff x, isInfinite_iff_absBits x, isQuietNaN_iff x, isQuietNaN_iff_absBits x,
    isSignalingNaN_iff x, isSignalingNaN_iff_absBits x, exactly_one_class x⟩

end Sys2Proof.Machine

/-! ## The values of patterns (R38) -/

namespace Sys2Proof.Machine

/-- The value of a magnitude pattern (R38), by the formula of the finite ones for every number: the pattern of the
infinity would have the value `2^16384`. -/
def magnitudeValue (p : ℕ) : ℚ :=
  if p / 2 ^ 112 = 0 then (p : ℚ) * 2 ^ (-16494 : ℤ)
  else (2 ^ 112 + ((p % 2 ^ 112 : ℕ) : ℚ)) * 2 ^ (((p / 2 ^ 112 : ℕ) : ℤ) - 16495)

theorem zpow_succ_two (e : ℤ) : (2 : ℚ) ^ (e + 1) = 2 ^ e * 2 := zpow_add_one₀ two_ne_zero e

/-- One formula for denormal patterns, with `k = 0`, and normal ones, with the implicit bit in `s`. It holds for `s =
2^113` too, where the significand's carry has reached the exponent field. -/
theorem magnitudeValue_of_parts {k s : ℕ} (hs : s ≤ 2 ^ 113) (hnormal : k = 0 ∨ 2 ^ 112 ≤ s) :
    magnitudeValue (k * 2 ^ 112 + s) = s * 2 ^ ((k : ℤ) - 16494) := by
  rw [magnitudeValue]
  obtain hlt | ⟨hge, hlt⟩ | rfl : s < 2 ^ 112 ∨ (2 ^ 112 ≤ s ∧ s < 2 ^ 113) ∨ s = 2 ^ 113 := by omega
  · obtain rfl : k = 0 := by omega
    have hdiv : (0 * 2 ^ 112 + s) / 2 ^ 112 = 0 := by omega
    rw [if_pos hdiv, Nat.zero_mul, Nat.zero_add]
    rfl
  · have hdiv : (k * 2 ^ 112 + s) / 2 ^ 112 = k + 1 := by omega
    have hmod : (k * 2 ^ 112 + s) % 2 ^ 112 = s - 2 ^ 112 := by omega
    have hexp : ((k + 1 : ℕ) : ℤ) - 16495 = (k : ℤ) - 16494 := by omega
    rw [hdiv, if_neg k.succ_ne_zero, hmod, hexp, Nat.cast_sub hge]
    push_cast
    ring
  · have hdiv : (k * 2 ^ 112 + 2 ^ 113) / 2 ^ 112 = k + 2 := by omega
    have hmod : (k * 2 ^ 112 + 2 ^ 113) % 2 ^ 112 = 0 := by omega
    have hexp : ((k + 2 : ℕ) : ℤ) - 16495 = (k : ℤ) - 16494 + 1 := by omega
    rw [hdiv, if_neg (k + 1).succ_ne_zero, hmod, hexp, zpow_succ_two]
    push_cast
    ring

/-- Every magnitude is the sum of such parts. -/
theorem exists_magnitude_parts (p : ℕ) :
    ∃ k s, s < 2 ^ 113 ∧ (k = 0 ∨ 2 ^ 112 ≤ s) ∧ p = k * 2 ^ 112 + s :=
  ⟨p / 2 ^ 112 - 1, p - (p / 2 ^ 112 - 1) * 2 ^ 112, by omega⟩

/-- The next magnitude is one unit in the last place above. -/
theorem magnitudeValue_lt_succ (p : ℕ) : magnitudeValue p < magnitudeValue (p + 1) := by
  obtain ⟨k, s, hs, hnormal, rfl⟩ := exists_magnitude_parts p
  rw [magnitudeValue_of_parts hs.le hnormal, Nat.add_assoc, magnitudeValue_of_parts hs (by omega)]
  have hulp : (0 : ℚ) < 2 ^ ((k : ℤ) - 16494) := zpow_pos two_pos _
  push_cast
  linarith

theorem magnitudeValue_strictMono : StrictMono magnitudeValue := strictMono_nat_of_lt_succ magnitudeValue_lt_succ

theorem magnitudeValue_nonneg (p : ℕ) : 0 ≤ magnitudeValue p := by
  unfold magnitudeValue
  split <;> positivity

/-- The value of a pattern is that of its magnitude, with its sign (R38). -/
theorem valueOf_eq_magnitude (x : Word) :
    valueOf x = (if signField x then -1 else 1) * magnitudeValue (absBits x).toNat := by
  have hm := sigField_lt x
  rw [valueOf]
  congr 1
  by_cases he : expField x = 0
  · have habs : (absBits x).toNat = 0 * 2 ^ 112 + (sigField x).toNat := by rw [absBits_eq_fields, he]
    have hexp : (1 : ℤ) - 16383 = ((0 : ℕ) : ℤ) - 16494 + (112 : ℕ) := rfl
    rw [if_pos he, habs, magnitudeValue_of_parts (by omega) (.inl rfl), hexp, zpow_add₀ two_ne_zero, zpow_natCast]
    ring
  · have habs : (absBits x).toNat = (expField x - 1) * 2 ^ 112 + (2 ^ 112 + (sigField x).toNat) := by
      rw [absBits_eq_fields]
      omega
    have hexp : (expField x : ℤ) - 16383 = ((expField x - 1 : ℕ) : ℤ) - 16494 + (112 : ℕ) := by omega
    rw [if_neg he, habs, magnitudeValue_of_parts (by omega) (by omega), hexp, zpow_add₀ two_ne_zero, zpow_natCast]
    push_cast
    ring

@[simp] theorem valueOf_negate (x : Word) : valueOf (negate x) = -valueOf x := by
  rw [valueOf_eq_magnitude, valueOf_eq_magnitude, absBits_negate, signField_negate]
  cases signField x <;> simp

theorem valueOf_of_lt {x : Word} (h : x.toNat < 2 ^ 127) : valueOf x = magnitudeValue x.toNat := by
  have hsign : signField x = false := by
    rw [signField_eq, decide_eq_false_iff_not]
    omega
  rw [valueOf_eq_magnitude, hsign, absBits_toNat, Nat.mod_eq_of_lt h, if_neg Bool.false_ne_true, one_mul]

/-- No pattern has a value between those of neighbouring magnitudes. -/
theorem valueOf_le_or_succ_le (x : Word) (p : ℕ) :
    valueOf x ≤ magnitudeValue p ∨ magnitudeValue (p + 1) ≤ valueOf x := by
  rw [valueOf_eq_magnitude]
  cases signField x with
  | true =>
    have hx := magnitudeValue_nonneg (absBits x).toNat
    have hp := magnitudeValue_nonneg p
    left
    simp only [if_true]
    linarith
  | false =>
    simp only [Bool.false_eq_true, if_false, one_mul, magnitudeValue_strictMono.le_iff_le]
    omega

end Sys2Proof.Machine

/-! ## Rounding of a value that the round bits place between two magnitudes (R75 to R80) -/

namespace Sys2Proof.Machine

section between

variable {p : ℕ} {v : ℚ} {r : Word}

theorem isGreatestBelow_of_between (hr : valueOf r = magnitudeValue p) (hlo : magnitudeValue p ≤ v)
    (hhi : v < magnitudeValue (p + 1)) : isGreatestBelow v r := by
  refine ⟨hr ▸ hlo, fun q _ hq => ?_⟩
  rcases valueOf_le_or_succ_le q p with h | h <;> linarith

theorem isLeastAbove_of_between (hr : valueOf r = magnitudeValue (p + 1)) (hlo : magnitudeValue p < v)
    (hhi : v ≤ magnitudeValue (p + 1)) : isLeastAbove v r := by
  refine ⟨hr ▸ hhi, fun q _ hq => ?_⟩
  rcases valueOf_le_or_succ_le q p with h | h <;> linarith

/-- The lower neighbour is nearest below the midpoint, and at it where its last bit is 0. -/
theorem isNearest_of_lower (hr : valueOf r = magnitudeValue p) (hlo : magnitudeValue p ≤ v)
    (hmid : 2 * v < magnitudeValue p + magnitudeValue (p + 1) ∨
      2 * v = magnitudeValue p + magnitudeValue (p + 1) ∧ r.getLsbD 0 = false) : isNearest v r := by
  intro q _
  have hr' : |valueOf r - v| = v - magnitudeValue p := by rw [hr, abs_sub_comm, abs_of_nonneg (sub_nonneg.mpr hlo)]
  have hlt := magnitudeValue_lt_succ p
  rw [hr', hr]
  rcases valueOf_le_or_succ_le q p with h | h
  · rw [abs_sub_comm, abs_of_nonneg (by linarith)]
    exact ⟨by linarith, fun heq hne => absurd (by linarith) hne⟩
  · rw [abs_of_nonneg (by rcases hmid with hm | ⟨hm, -⟩ <;> linarith)]
    rcases hmid with hm | ⟨hm, heven⟩
    · exact ⟨by linarith, fun heq => absurd heq (by linarith)⟩
    · exact ⟨by linarith, fun _ _ => heven⟩

/-- The upper neighbour is nearest above the midpoint, and at it where its last bit is 0. -/
theorem isNearest_of_upper (hr : valueOf r = magnitudeValue (p + 1)) (hhi : v ≤ magnitudeValue (p + 1))
    (hmid : magnitudeValue p + magnitudeValue (p + 1) < 2 * v ∨
      2 * v = magnitudeValue p + magnitudeValue (p + 1) ∧ r.getLsbD 0 = false) : isNearest v r := by
  intro q _
  have hr' : |valueOf r - v| = magnitudeValue (p + 1) - v := by rw [hr, abs_of_nonneg (sub_nonneg.mpr hhi)]
  have hlt := magnitudeValue_lt_succ p
  rw [hr', hr]
  rcases valueOf_le_or_succ_le q p with h | h
  · rw [abs_sub_comm, abs_of_nonneg (by rcases hmid with hm | ⟨hm, -⟩ <;> linarith)]
    rcases hmid with hm | ⟨hm, heven⟩
    · exact ⟨by linarith, fun heq => absurd heq (by linarith)⟩
    · exact ⟨by linarith, fun _ _ => heven⟩
  · rw [abs_of_nonneg (by linarith)]
    exact ⟨by linarith, fun heq hne => absurd (by linarith) hne⟩

end between

theorem isRounded_of_exact {v : ℚ} {r : Word} (rm : RoundingMode) (h : valueOf r = v) : isRounded rm v r := by
  have hbelow : isGreatestBelow v r := ⟨h.le, fun _ _ hq => hq.trans h.ge⟩
  have habove : isLeastAbove v r := ⟨h.ge, fun _ _ hq => h.le.trans hq⟩
  cases rm with
  | nearest =>
    intro q _
    rw [h, sub_self, abs_zero]
    exact ⟨abs_nonneg _, fun heq hne => absurd (sub_eq_zero.mp (abs_eq_zero.mp heq.symm)) hne⟩
  | downward => exact hbelow
  | upward => exact habove
  | towardZero => exact ⟨fun _ => hbelow, fun _ => habove⟩

/-! ### The increments -/

/-- A value lies between the values of magnitude `p` and of the next one, and the three round bits tell where: at `p`,
below the middle, at it or above it (R75). -/
structure Bracketed (p rgs : ℕ) (v : ℚ) : Prop where
  lower : magnitudeValue p ≤ v
  upper : v < magnitudeValue (p + 1)
  exact_iff : rgs = 0 ↔ v = magnitudeValue p
  below_iff : rgs < 4 ↔ 2 * v < magnitudeValue p + magnitudeValue (p + 1)
  above_iff : 4 < rgs ↔ magnitudeValue p + magnitudeValue (p + 1) < 2 * v

theorem Bracketed.lower_lt {p rgs : ℕ} {v : ℚ} (h : Bracketed p rgs v) (hne : rgs ≠ 0) : magnitudeValue p < v :=
  lt_of_le_of_ne h.lower fun heq => hne (h.exact_iff.mpr heq.symm)

theorem Bracketed.middle {p : ℕ} {v : ℚ} (h : Bracketed p 4 v) :
    2 * v = magnitudeValue p + magnitudeValue (p + 1) :=
  le_antisymm (not_lt.mp fun hlt => absurd (h.above_iff.mpr hlt) (lt_irrefl 4))
    (not_lt.mp fun hlt => absurd (h.below_iff.mpr hlt) (lt_irrefl 4))

theorem getLsbD_zero_iff (r : Word) : r.getLsbD 0 = true ↔ r.toNat % 2 = 1 := by
  rw [← BitVec.testBit_toNat, Nat.testBit_zero, decide_eq_true_iff]

theorem and_one_eq_boolWord (r : Word) : r &&& 1#128 = boolWord (r.getLsbD 0) := by
  apply BitVec.eq_of_toNat_eq
  have hand : (r &&& 1#128).toNat = r.toNat % 2 := by rw [BitVec.toNat_and]; exact Nat.and_one_is_mod _
  rw [hand, boolWord_toNat]
  split_ifs with hodd
  · exact (getLsbD_zero_iff r).mp hodd
  · rw [getLsbD_zero_iff] at hodd
    omega

theorem add_one_toNat {r : Word} (h : r.toNat + 1 < 2 ^ 127) : (r + 1#128).toNat = r.toNat + 1 := by
  rw [BitVec.toNat_add_of_lt (h.trans (by decide))]
  rfl

/-- The increment to nearest: beyond the middle, and at it from an odd pattern (R77). -/
theorem roundIncrement_nearest (rgs : ℕ) (signR r : Word) :
    roundIncrement .nearest rgs signR r =
      if 4 < rgs ∨ (rgs = 4 ∧ r.getLsbD 0 = true) then r + 1#128 else r := by
  rw [roundIncrement, and_one_eq_boolWord]
  obtain hlt | rfl | hgt : rgs < 4 ∨ rgs = 4 ∨ 4 < rgs := by omega
  · rw [if_neg (by omega), if_neg (by omega), if_neg (by omega)]
  · cases r.getLsbD 0 <;> simp [boolWord]
  · rw [if_pos hgt, if_pos (.inl hgt)]

section increment

variable {r : Word} {rgs : ℕ} {v : ℚ} (h : Bracketed r.toNat rgs v) (hr : r.toNat + 1 < 2 ^ 127)
include hr

theorem valueOf_add_one : valueOf (r + 1#128) = magnitudeValue (r.toNat + 1) := by
  rw [valueOf_of_lt (add_one_toNat hr ▸ hr), add_one_toNat hr]

include h

/-- R77, for a positive pattern. -/
theorem isNearest_roundIncrement : isNearest v (roundIncrement .nearest rgs 0#128 r) := by
  have hlow : valueOf r = magnitudeValue r.toNat := valueOf_of_lt (by omega)
  rw [roundIncrement_nearest]
  split_ifs with hup
  · apply isNearest_of_upper (valueOf_add_one hr) h.upper.le
    rcases hup with hgt | ⟨rfl, hodd⟩
    · exact .inl (h.above_iff.mp hgt)
    · refine .inr ⟨h.middle, ?_⟩
      rw [getLsbD_zero_iff] at hodd
      rw [← Bool.not_eq_true, getLsbD_zero_iff, add_one_toNat hr]
      omega
  · apply isNearest_of_lower hlow h.lower
    obtain hlt | rfl : rgs < 4 ∨ rgs = 4 := by omega
    · exact .inl (h.below_iff.mp hlt)
    · exact .inr ⟨h.middle, by simpa using hup⟩

/-- R77 to R80, for a positive pattern: the rounding of a value that lies between it and the next one. -/
theorem isRounded_roundIncrement (rm : RoundingMode) : isRounded rm v (roundIncrement rm rgs 0#128 r) := by
  have hlow : valueOf r = magnitudeValue r.toNat := valueOf_of_lt (by omega)
  have hbelow : isGreatestBelow v r := isGreatestBelow_of_between hlow h.lower h.upper
  by_cases hexact : rgs = 0
  · have hsame : roundIncrement rm rgs 0#128 r = r := by
      cases rm <;> simp [roundIncrement, hexact]
    rw [hsame]
    exact isRounded_of_exact rm (hlow.trans (h.exact_iff.mp hexact).symm)
  · have hlt := h.lower_lt hexact
    cases rm with
    | nearest => exact isNearest_roundIncrement h hr
    | downward => exact hbelow
    | upward =>
      have hinc : roundIncrement .upward rgs 0#128 r = r + 1#128 := by simp [roundIncrement, hexact]
      rw [hinc]
      exact isLeastAbove_of_between (valueOf_add_one hr) hlt h.upper.le
    | towardZero =>
      exact ⟨fun _ => hbelow, fun hneg => absurd hneg (not_le.mpr ((magnitudeValue_nonneg _).trans_lt hlt))⟩

end increment

/-! ### The other sign -/

theorem isNearest_negate {v : ℚ} {r : Word} (h : isNearest v r) : isNearest (-v) (negate r) := by
  intro q hq
  obtain ⟨hle, htie⟩ := h (negate q) (by rwa [isFinite_negate])
  have hdist (x : Word) : |valueOf (negate x) - v| = |valueOf x - -v| := by
    rw [valueOf_negate, ← abs_neg]
    congr 1
    ring
  have hr := hdist (negate r)
  rw [negate_negate] at hr
  rw [hdist q, hr] at hle htie
  refine ⟨hle, fun heq hne => ?_⟩
  have heven := htie heq (by simpa [neg_eq_iff_eq_neg] using hne)
  rw [negate_getLsbD, heven]
  rfl

theorem isLeastAbove_negate {v : ℚ} {r : Word} (h : isGreatestBelow v r) : isLeastAbove (-v) (negate r) := by
  refine ⟨?_, fun q hq hle => ?_⟩
  · rw [valueOf_negate]
    exact neg_le_neg h.1
  · have hneg := h.2 (negate q) (by rwa [isFinite_negate])
    rw [valueOf_negate] at hneg ⊢
    linarith [hneg (by linarith)]

theorem isGreatestBelow_negate {v : ℚ} {r : Word} (h : isLeastAbove v r) : isGreatestBelow (-v) (negate r) := by
  refine ⟨?_, fun q hq hle => ?_⟩
  · rw [valueOf_negate]
    exact neg_le_neg h.1
  · have hneg := h.2 (negate q) (by rwa [isFinite_negate])
    rw [valueOf_negate] at hneg ⊢
    linarith [hneg (by linarith)]

theorem isRounded_negate {rm : RoundingMode} {v : ℚ} {r : Word} (h : isRounded (mirrored rm) v r) :
    isRounded rm (-v) (negate r) := by
  cases rm with
  | nearest => exact isNearest_negate h
  | downward => exact isGreatestBelow_negate h
  | upward => exact isLeastAbove_negate h
  | towardZero =>
    exact ⟨fun hv => isGreatestBelow_negate (h.2 (neg_nonneg.mp hv)),
      fun hv => isLeastAbove_negate (h.1 (neg_nonpos.mp hv))⟩

theorem negate_eq_add (r : Word) : negate r = r + signBit := by
  apply BitVec.eq_of_toNat_eq
  have hlt := r.isLt
  rw [negate_toNat, BitVec.toNat_add, signBit_toNat]
  split <;> omega

theorem negate_add_one (r : Word) : negate r + 1#128 = negate (r + 1#128) := by
  rw [negate_eq_add, negate_eq_add]
  exact add_right_comm r signBit 1#128

/-- The increment of a negative pattern is that of its magnitude in the mirrored mode (R77 to R80, R101). -/
theorem roundIncrement_negate (rm : RoundingMode) (rgs : ℕ) (r : Word) :
    roundIncrement rm rgs signBit (negate r) = negate (roundIncrement (mirrored rm) rgs 0#128 r) := by
  have hlow : (negate r).getLsbD 0 = r.getLsbD 0 := by rw [negate_getLsbD]; simp
  cases rm with
  | nearest =>
    rw [mirrored, roundIncrement_nearest, roundIncrement_nearest, hlow, negate_add_one, apply_ite negate]
  | downward =>
    have hsign : (signBit != 0#128) = true := by decide
    simp [mirrored, roundIncrement, hsign, negate_add_one, apply_ite negate]
  | upward =>
    have hsign : (signBit == 0#128) = false := by decide
    simp [mirrored, roundIncrement, hsign]
  | towardZero => rfl

/-- R77 to R80, for a negative pattern. -/
theorem isRounded_roundIncrement_negate {r : Word} {rgs : ℕ} {v : ℚ} (h : Bracketed r.toNat rgs v)
    (hr : r.toNat + 1 < 2 ^ 127) (rm : RoundingMode) :
    isRounded rm (-v) (roundIncrement rm rgs signBit (negate r)) := by
  rw [roundIncrement_negate]
  exact isRounded_negate (isRounded_roundIncrement h hr _)

end Sys2Proof.Machine

/-! ## Numbers that stand for an exact value up to a granularity -/

namespace Sys2Proof.Machine

/-- The number `n` lies on the same side as the exact value `q` of every multiple of `g`. A significand with a sticky
bit does, for `g = 2` (R11); the round bits need it for `g = 4` (R75). -/
def sameSide (g n : ℤ) (q : ℚ) : Prop :=
  ∀ k : ℤ, (n < g * k ↔ q < ((g * k : ℤ) : ℚ)) ∧ (g * k < n ↔ ((g * k : ℤ) : ℚ) < q)

section sameSide

variable {g n : ℤ} {q : ℚ}

theorem sameSide_self (g n : ℤ) : sameSide g n (n : ℚ) :=
  fun _ => ⟨Int.cast_lt.symm, Int.cast_lt.symm⟩

/-- An odd number stands for every value between its neighbours. -/
theorem sameSide_two_of_odd (hodd : n % 2 = 1) (hlo : ((n - 1 : ℤ) : ℚ) < q) (hhi : q < ((n + 1 : ℤ) : ℚ)) :
    sameSide 2 n q := by
  intro k
  have hbelow : n < 2 * k → n + 1 ≤ 2 * k := by omega
  have habove : 2 * k < n → 2 * k ≤ n - 1 := by omega
  refine ⟨⟨fun h => hhi.trans_le (Int.cast_le.mpr (hbelow h)), fun h => ?_⟩,
    ⟨fun h => (Int.cast_le.mpr (habove h)).trans_lt hlo, fun h => ?_⟩⟩
  · have hk : n - 1 < 2 * k := Int.cast_lt.mp (hlo.trans h)
    omega
  · have hk : 2 * k < n + 1 := Int.cast_lt.mp (h.trans hhi)
    omega

theorem sameSide.coarsen {g' : ℤ} (h : sameSide g n q) (hg : g ∣ g') : sameSide g' n q := by
  obtain ⟨c, rfl⟩ := hg
  intro k
  rw [mul_assoc]
  exact h (c * k)

theorem sameSide.const_add {c : ℤ} (h : sameSide g n q) (hc : g ∣ c) : sameSide g (c + n) (c + q) := by
  obtain ⟨d, rfl⟩ := hc
  intro k
  have hk := h (k - d)
  rwa [mul_sub, lt_sub_iff_add_lt', sub_lt_iff_lt_add', Int.cast_sub, lt_sub_iff_add_lt', sub_lt_iff_lt_add'] at hk

theorem sameSide.const_sub {c : ℤ} (h : sameSide g n q) (hc : g ∣ c) : sameSide g (c - n) (c - q) := by
  obtain ⟨d, rfl⟩ := hc
  intro k
  have hk := h (d - k)
  rw [mul_sub, Int.cast_sub] at hk
  exact ⟨sub_lt_comm.trans (hk.2.trans sub_lt_comm), lt_sub_comm.trans (hk.1.trans lt_sub_comm)⟩

theorem sameSide.scale {m : ℤ} (h : sameSide g n q) (hm : 0 < m) : sameSide (m * g) (m * n) (m * q) := by
  intro k
  have hmq : (0 : ℚ) < m := Int.cast_pos.mpr hm
  rw [mul_assoc, Int.cast_mul, mul_lt_mul_iff_right₀ hm, mul_lt_mul_iff_right₀ hm, mul_lt_mul_iff_right₀ hmq,
    mul_lt_mul_iff_right₀ hmq]
  exact h k

end sameSide

/-! ### Shift right with sticky (R11) -/

/-- `srj` is the quotient where the division is exact, and otherwise the odd one of the quotient and the next number. -/
theorem srj_toNat_cases (v : Word) (n : ℕ) :
    (v.toNat % 2 ^ n = 0 ∧ (srj v n).toNat = v.toNat / 2 ^ n) ∨
    (v.toNat % 2 ^ n ≠ 0 ∧ (srj v n).toNat = 2 * (v.toNat / 2 ^ n / 2) + 1) := by
  rw [srj_eq_or_mod, BitVec.toNat_or, BitVec.toNat_ushiftRight, Nat.shiftRight_eq_div_pow, boolWord_toNat]
  by_cases h : v.toNat % 2 ^ n = 0
  · simp [h]
  · have hdiv := Nat.or_div_two (a := v.toNat / 2 ^ n) (b := 1)
    have hmod := Nat.or_mod_two_eq_one (a := v.toNat / 2 ^ n) (b := 1)
    rw [Nat.or_zero] at hdiv
    refine .inr ⟨h, ?_⟩
    rw [if_pos (bne_iff_ne.mpr h)]
    omega

theorem srj_of_exact {v : Word} {n : ℕ} (h : v.toNat % 2 ^ n = 0) : (srj v n).toNat * 2 ^ n = v.toNat := by
  rcases srj_toNat_cases v n with ⟨-, hs⟩ | ⟨hne, -⟩
  · rw [hs, Nat.div_mul_cancel (Nat.dvd_of_mod_eq_zero h)]
  · exact absurd h hne

theorem sameSide_srj_self (v : Word) (n : ℕ) :
    sameSide 2 (srj v n).toNat (((v.toNat : ℤ) : ℚ) / 2 ^ n) := by
  have hpow : (0 : ℚ) < 2 ^ n := pow_pos two_pos n
  rcases srj_toNat_cases v n with ⟨hexact, -⟩ | ⟨hne, hodd⟩
  · have hq : ((v.toNat : ℤ) : ℚ) / 2 ^ n = (((srj v n).toNat : ℤ) : ℚ) := by
      rw [div_eq_iff hpow.ne', ← srj_of_exact hexact]
      push_cast
      rfl
    rw [hq]
    exact sameSide_self 2 _
  · have hdiv := Nat.div_add_mod' v.toNat (2 ^ n)
    have hrem := Nat.mod_lt v.toNat (Nat.two_pow_pos n)
    have hlo : (v.toNat / 2 ^ n) * 2 ^ n < v.toNat := by omega
    have hhi : v.toNat < (v.toNat / 2 ^ n + 1) * 2 ^ n := by rw [Nat.add_mul]; omega
    generalize v.toNat / 2 ^ n = t at *
    apply sameSide_two_of_odd (by omega)
    · have hle : ((srj v n).toNat : ℤ) - 1 ≤ t := by omega
      refine (Int.cast_le.mpr hle).trans_lt ((lt_div_iff₀ hpow).mpr ?_)
      exact_mod_cast hlo
    · have hle : (t : ℤ) + 1 ≤ (srj v n).toNat + 1 := by omega
      refine ((div_lt_iff₀ hpow).mpr ?_).trans_le (Int.cast_le.mpr hle)
      exact_mod_cast hhi

/-- A right shift divides the value and the granularity; the sticky bit allows one bit more. -/
theorem sameSide.srj {v : Word} {n : ℕ} {q : ℚ} (h : sameSide (2 ^ (n + 1)) v.toNat q) :
    sameSide 2 (srj v n).toNat (q / 2 ^ n) := by
  intro k
  have hpow : (0 : ℚ) < 2 ^ n := pow_pos two_pos n
  have hmul : ((2 * k : ℤ) : ℚ) * 2 ^ n = ((2 ^ (n + 1) * k : ℤ) : ℚ) := by push_cast; ring
  obtain ⟨hlt, hgt⟩ := h k
  obtain ⟨hlt', hgt'⟩ := sameSide_srj_self v n k
  rw [div_lt_iff₀ hpow, hmul, Int.cast_lt] at hlt'
  rw [lt_div_iff₀ hpow, hmul, Int.cast_lt] at hgt'
  rw [div_lt_iff₀ hpow, lt_div_iff₀ hpow, hmul]
  exact ⟨hlt'.trans hlt, hgt'.trans hgt⟩

theorem srj_lt_iff (v : Word) (n k : ℕ) : (srj v n).toNat < 2 * k ↔ v.toNat < 2 * k * 2 ^ n := by
  have h := (sameSide_srj_self v n k).1
  rw [div_lt_iff₀ (pow_pos two_pos n)] at h
  exact_mod_cast h

end Sys2Proof.Machine

/-! ## The operands of the general path (R55, R58 to R61) -/

namespace Sys2Proof.Machine

/-- An operand of the general path (R55). -/
def nonzeroFinite (x : Word) : Prop := isNormal x = true ∨ isDenormal x = true

theorem nonzeroFinite_iff (x : Word) :
    nonzeroFinite x ↔ 0 < (absBits x).toNat ∧ (absBits x).toNat < 32767 * 2 ^ 112 := by
  rw [nonzeroFinite, isNormal_iff_absBits, isDenormal_iff_absBits, BitVec.le_def, BitVec.lt_def, BitVec.lt_def,
    BitVec.lt_def, implicitBit_toNat, infRep_toNat, BitVec.toNat_zero]
  omega

theorem isFinite_iff (x : Word) : isFinite x = true ↔ isZero x = true ∨ nonzeroFinite x := by
  rw [isFinite, Bool.or_eq_true, Bool.or_eq_true, nonzeroFinite, or_assoc, or_comm (a := isDenormal x = true)]

theorem isFinite_iff_absBits (x : Word) : isFinite x = true ↔ (absBits x).toNat < 32767 * 2 ^ 112 := by
  rw [isFinite_iff, isZero_iff_absBits, nonzeroFinite_iff, ← BitVec.toNat_inj, BitVec.toNat_zero]
  omega

/-- The significand of an operand with its implicit bit, before the guard bits (R61). -/
def significandOf (x : Word) : ℕ := (operandSig x ||| implicitBit).toNat

theorem or_implicitBit_toNat {m : Word} (h : m.toNat < 2 ^ 113) :
    (m ||| implicitBit).toNat = 2 ^ 112 + m.toNat % 2 ^ 112 := by
  have hlow : m.toNat % 2 ^ 112 < 2 ^ 112 := Nat.mod_lt _ (Nat.two_pow_pos 112)
  have himplicit := Nat.two_pow_add_eq_or_of_lt hlow 1
  rw [Nat.mul_one] at himplicit
  rw [BitVec.toNat_or, implicitBit_toNat]
  obtain hm | hm : m.toNat = m.toNat % 2 ^ 112 ∨ m.toNat = 2 ^ 112 + m.toNat % 2 ^ 112 := by omega
  · rw [himplicit, Nat.or_comm, ← hm]
  · have hor : m.toNat = 2 ^ 112 ||| m.toNat % 2 ^ 112 := hm.trans himplicit
    rw [himplicit, ← hor]
    nth_rw 1 [hor]
    rw [Nat.or_right_comm, Nat.or_self, ← hor]

/-- The guard bits make room for three round bits (R61). -/
theorem extendGuard_toNat {m : Word} (h : (m ||| implicitBit).toNat < 2 ^ 113) :
    (extendGuard m).toNat = 8 * (m ||| implicitBit).toNat := by
  rw [extendGuard, BitVec.toNat_shiftLeft, Nat.shiftLeft_eq, Nat.mod_eq_of_lt (by omega), Nat.mul_comm]

/-- What normalisation makes of an operand: a significand with its leading bit at bit 112, an exponent, and the value
they give it (R38, R58, R59). -/
structure OperandParts (x : Word) : Prop where
  sig_ge : 2 ^ 112 ≤ significandOf x
  sig_lt : significandOf x < 2 ^ 113
  exp_ge : -111 ≤ operandExp x
  exp_le : operandExp x ≤ 32766
  value : magnitudeValue (absBits x).toNat = significandOf x * 2 ^ (operandExp x - 16495)

theorem operandParts_of_isNormal {x : Word} (h : isNormal x = true) : OperandParts x := by
  obtain ⟨hlow, hhigh⟩ := (isNormal_iff x).mp h
  have hm := sigField_lt x
  have hne : expField x ≠ 0 := by omega
  have hexp : operandExp x = expField x := by rw [operandExp, normalizeOperand, if_neg hne]
  have hsig : significandOf x = 2 ^ 112 + (sigField x).toNat := by
    rw [significandOf, operandSig, normalizeOperand, if_neg hne, or_implicitBit_toNat (m := sigField x) (by omega),
      Nat.mod_eq_of_lt hm]
  have habs : (absBits x).toNat = (expField x - 1) * 2 ^ 112 + significandOf x := by
    rw [absBits_eq_fields, hsig]
    omega
  have hscale : operandExp x - 16495 = ((expField x - 1 : ℕ) : ℤ) - 16494 := by omega
  refine ⟨by omega, by omega, by omega, by omega, ?_⟩
  rw [habs, magnitudeValue_of_parts (by omega) (.inr (by omega)), hscale]

theorem clz128_ge {v : Word} (hne : v ≠ 0#128) {b : ℕ} (hlt : v.toNat < 2 ^ (b + 1)) : 127 - b ≤ clz128 v := by
  obtain ⟨hle, hlow, -⟩ := clz128_bounds hne
  have hpow : 127 - clz128 v < b + 1 := (Nat.pow_lt_pow_iff_right (by decide)).mp (hlow.trans_lt hlt)
  omega

/-- The shift by which R59 and R70 normalise brings the leading bit to bit `b`. -/
theorem clz128_shift {v : Word} (hne : v ≠ 0#128) {b : ℕ} (hlt : v.toNat < 2 ^ (b + 1)) (hb : b ≤ 127) :
    2 ^ b ≤ v.toNat * 2 ^ (clz128 v - (127 - b)) ∧ v.toNat * 2 ^ (clz128 v - (127 - b)) < 2 ^ (b + 1) := by
  obtain ⟨hle, hlow, hhigh⟩ := clz128_bounds hne
  have hge := clz128_ge hne hlt
  have hpow : 2 ^ b = 2 ^ (127 - clz128 v) * 2 ^ (clz128 v - (127 - b)) := by rw [← Nat.pow_add]; congr 1; omega
  have hpow' : 2 ^ (b + 1) = 2 ^ (128 - clz128 v) * 2 ^ (clz128 v - (127 - b)) := by
    rw [← Nat.pow_add]; congr 1; omega
  rw [hpow, hpow']
  exact ⟨Nat.mul_le_mul_right _ hlow, Nat.mul_lt_mul_of_pos_right hhigh (Nat.two_pow_pos _)⟩

theorem operandParts_of_isDenormal {x : Word} (h : isDenormal x = true) : OperandParts x := by
  obtain ⟨he, hne⟩ := (isDenormal_iff x).mp h
  have hm := sigField_lt x
  have hclz1 : 127 - 111 ≤ clz128 (sigField x) := clz128_ge hne hm
  have hclz2 := (clz128_bounds hne).1
  obtain ⟨hlow, hhigh⟩ : 2 ^ 112 ≤ (sigField x).toNat * 2 ^ (clz128 (sigField x) - 15) ∧
      (sigField x).toNat * 2 ^ (clz128 (sigField x) - 15) < 2 ^ 113 :=
    clz128_shift hne (b := 112) (by omega) (by decide)
  have hclz : clz128 implicitBit = 15 := by decide
  have hexp : operandExp x = 1 - (clz128 (sigField x) - 15 : ℕ) := by
    rw [operandExp, normalizeOperand, if_pos he, hclz]
  have hshift : (operandSig x).toNat = (sigField x).toNat * 2 ^ (clz128 (sigField x) - 15) := by
    rw [operandSig, normalizeOperand, if_pos he, hclz, BitVec.toNat_shiftLeft, Nat.shiftLeft_eq,
      Nat.mod_eq_of_lt (by omega)]
  have hsig : significandOf x = (sigField x).toNat * 2 ^ (clz128 (sigField x) - 15) := by
    rw [significandOf, or_implicitBit_toNat (by omega)]
    omega
  have habs : (absBits x).toNat = 0 * 2 ^ 112 + (sigField x).toNat := by rw [absBits_eq_fields, he]
  have hscale : ((0 : ℕ) : ℤ) - 16494 = (clz128 (sigField x) - 15 : ℕ) + (operandExp x - 16495) := by omega
  refine ⟨by omega, by omega, by omega, by omega, ?_⟩
  rw [habs, magnitudeValue_of_parts (by omega) (.inl rfl), hsig, hscale, zpow_add₀ two_ne_zero, zpow_natCast]
  push_cast
  ring

theorem operandParts {x : Word} (hx : nonzeroFinite x) : OperandParts x :=
  hx.elim operandParts_of_isNormal operandParts_of_isDenormal

/-- The larger magnitude has the larger exponent or, where these are equal, the larger significand (R57, R62). -/
theorem OperandParts.le_of_absBits_le {x y : Word} (hx : OperandParts x) (hy : OperandParts y)
    (h : (absBits y).toNat ≤ (absBits x).toNat) :
    operandExp y ≤ operandExp x ∧ (operandExp y = operandExp x → significandOf y ≤ significandOf x) := by
  have hvalue := magnitudeValue_strictMono.monotone h
  rw [hx.value, hy.value] at hvalue
  have hpos (e : ℤ) : (0 : ℚ) < 2 ^ e := zpow_pos two_pos e
  refine ⟨not_lt.mp fun hlt => ?_, fun heq => ?_⟩
  · have hsx : (significandOf x : ℚ) < 2 ^ 113 := by exact_mod_cast hx.sig_lt
    have hsy : (2 ^ 112 : ℚ) ≤ significandOf y := by exact_mod_cast hy.sig_ge
    have hpow : (2 : ℚ) ^ (operandExp x - 16495) * 2 ≤ 2 ^ (operandExp y - 16495) := by
      rw [← zpow_succ_two]
      exact zpow_le_zpow_right₀ one_le_two (by omega)
    refine absurd hvalue (not_le.mpr ?_)
    calc significandOf x * (2 : ℚ) ^ (operandExp x - 16495)
        < 2 ^ 113 * 2 ^ (operandExp x - 16495) := mul_lt_mul_of_pos_right hsx (hpos _)
      _ = 2 ^ 112 * (2 ^ (operandExp x - 16495) * 2) := by ring
      _ ≤ significandOf y * 2 ^ (operandExp y - 16495) := mul_le_mul hsy hpow (by positivity) (by positivity)
  · rw [heq] at hvalue
    exact_mod_cast le_of_mul_le_mul_right hvalue (hpos _)

end Sys2Proof.Machine

/-! ## Alignment (R57 to R63) -/

namespace Sys2Proof.Machine

/-- A significand at an exponent stands for an exact value of magnitude `t`, up to granularity `g`: a significand of the
datapath carries three round bits below bit 112 (R61), so one unit of it at exponent `e` is `2^(e - 16498)` (R38). -/
def tracks (g : ℤ) (w : Word) (e : ℤ) (t : ℚ) : Prop := sameSide g w.toNat (t * 2 ^ (16498 - e))

/-- A significand at an exponent is an exact value of magnitude `t`. -/
def isExactAt (w : Word) (e : ℤ) (t : ℚ) : Prop := (w.toNat : ℚ) = t * 2 ^ (16498 - e)

theorem isExactAt.tracks {w : Word} {e : ℤ} {t : ℚ} (h : isExactAt w e t) (g : ℤ) : tracks g w e t := by
  rw [Machine.tracks, ← h]
  exact sameSide_self g w.toNat

theorem majorOf_minorOf (xs ys : Word) :
    (absBits (minorOf xs ys)).toNat ≤ (absBits (majorOf xs ys)).toNat ∧
      ((majorOf xs ys = xs ∧ minorOf xs ys = ys) ∨ (majorOf xs ys = ys ∧ minorOf xs ys = xs)) := by
  rw [majorOf, minorOf]
  split_ifs with h
  · exact ⟨BitVec.le_of_lt h, .inr ⟨rfl, rfl⟩⟩
  · exact ⟨BitVec.not_lt.mp h, .inl ⟨rfl, rfl⟩⟩

section operand

variable {x : Word} (hx : OperandParts x)
include hx

theorem OperandParts.extendGuard : (extendGuard (operandSig x)).toNat = 8 * significandOf x :=
  extendGuard_toNat hx.sig_lt

/-- An operand's value in units of an exponent that is `d` more than its own. -/
theorem OperandParts.value_scaled {e : ℤ} (d : ℕ) (he : e = operandExp x + d) :
    magnitudeValue (absBits x).toNat * 2 ^ (16498 - e) = ((8 * significandOf x : ℕ) : ℚ) / 2 ^ d := by
  have hexp : operandExp x - 16495 + (16498 - e) = ((3 : ℕ) : ℤ) - (d : ℤ) := by omega
  rw [hx.value, mul_assoc, ← zpow_add₀ two_ne_zero, hexp, zpow_sub₀ two_ne_zero, zpow_natCast, zpow_natCast]
  push_cast
  ring

end operand

section align

variable {xs ys : Word}

theorem alignShift_expA : (alignShift xs ys).expA = operandExp (majorOf xs ys) := rfl

theorem alignShift_sigB :
    (alignShift xs ys).sigB = srj (extendGuard (operandSig (minorOf xs ys))) (alignAmount xs ys).toNat := rfl

theorem sigA_toNat (hx : OperandParts (majorOf xs ys)) :
    (alignShift xs ys).sigA.toNat = 8 * significandOf (majorOf xs ys) := hx.extendGuard

theorem sigA_isExactAt (hx : OperandParts (majorOf xs ys)) :
    isExactAt (alignShift xs ys).sigA (alignShift xs ys).expA (magnitudeValue (absBits (majorOf xs ys)).toNat) := by
  have hvalue := hx.value_scaled (e := (alignShift xs ys).expA) 0 (add_zero _).symm
  rw [pow_zero, div_one] at hvalue
  rw [isExactAt, hvalue, sigA_toNat hx]

/-- An alignment by `n` or more leaves a significand below `2^(116 - n)`, the sticky bit included. -/
theorem sigB_lt (hy : OperandParts (minorOf xs ys)) {n : ℕ} (hn : n ≤ 115) (h : n ≤ (alignAmount xs ys).toNat) :
    (alignShift xs ys).sigB.toNat < 2 ^ (116 - n) := by
  have hhalf : 2 ^ (116 - n) = 2 * 2 ^ (115 - n) := by rw [← Nat.pow_succ']; congr 1; omega
  have hwhole : 2 ^ 116 ≤ 2 * 2 ^ (115 - n) * 2 ^ (alignAmount xs ys).toNat := by
    rw [← hhalf, ← Nat.pow_add]
    exact Nat.pow_le_pow_right two_pos (by omega)
  have hlt := hy.sig_lt
  rw [alignShift_sigB, hhalf, srj_lt_iff, hy.extendGuard]
  omega

variable (hx : OperandParts (majorOf xs ys)) (hy : OperandParts (minorOf xs ys))
include hx hy

/-- The exponent of the major operand is the minor's and the alignment, and without alignment its significand is the
larger. -/
theorem alignAmount_spec :
    (alignShift xs ys).expA = operandExp (minorOf xs ys) + (alignAmount xs ys).toNat ∧
      ((alignAmount xs ys).toNat = 0 → significandOf (minorOf xs ys) ≤ significandOf (majorOf xs ys)) := by
  obtain ⟨hexp, hsig⟩ := hx.le_of_absBits_le hy (majorOf_minorOf xs ys).1
  rw [alignAmount, alignShift_expA]
  exact ⟨by omega, fun h => hsig (by omega)⟩

/-- The aligned significand stands for the minor operand: its sticky bit tells whether the shift was exact (R63). -/
theorem sigB_tracks :
    tracks 2 (alignShift xs ys).sigB (alignShift xs ys).expA (magnitudeValue (absBits (minorOf xs ys)).toNat) := by
  rw [tracks, hy.value_scaled _ (alignAmount_spec hx hy).1, ← hy.extendGuard]
  exact sameSide_srj_self _ _

/-- A shift by 3 or less drops no more than the guard bits, which are 0. -/
theorem sigB_isExactAt (h : (alignAmount xs ys).toNat ≤ 3) :
    isExactAt (alignShift xs ys).sigB (alignShift xs ys).expA (magnitudeValue (absBits (minorOf xs ys)).toNat) := by
  have hguard := hy.extendGuard
  have hmod : (extendGuard (operandSig (minorOf xs ys))).toNat % 2 ^ (alignAmount xs ys).toNat = 0 := by
    rw [hguard]
    exact Nat.mod_eq_zero_of_dvd ((pow_dvd_pow 2 h).mul_right _)
  rw [isExactAt, hy.value_scaled _ (alignAmount_spec hx hy).1, ← hguard, ← srj_of_exact hmod,
    eq_div_iff (pow_pos two_pos _).ne', alignShift_sigB]
  push_cast
  rfl

theorem sigB_le_sigA : (alignShift xs ys).sigB.toNat ≤ (alignShift xs ys).sigA.toNat := by
  have hge := hx.sig_ge
  rw [sigA_toNat hx]
  by_cases hd : (alignAmount xs ys).toNat = 0
  · have hsig := (alignAmount_spec hx hy).2 hd
    rw [alignShift_sigB, hd, srj_zero, hy.extendGuard]
    omega
  · have hlt := sigB_lt hy (n := 1) (by decide) (by omega)
    omega

end align

/-! ## Sum and difference (R65 to R68) -/

theorem sigAdd_of_add {a b : Word} (h : a.toNat + b.toNat < 2 ^ 128) :
    (sigAdd a b false).sum.toNat = a.toNat + b.toNat := BitVec.toNat_add_of_lt h

theorem sigAdd_of_sub {a b : Word} (h : b.toNat ≤ a.toNat) :
    (sigAdd a b true).sum.toNat = a.toNat - b.toNat := BitVec.toNat_sub_of_le h

/-- The sum of an exact significand, a multiple of 8, and one that stands for its value. -/
theorem tracks_sigAdd_of_add {a b : Word} {e : ℤ} {t u : ℚ} (ha : isExactAt a e t) (hb : tracks 2 b e u)
    (heven : a.toNat % 2 = 0) (h : a.toNat + b.toNat < 2 ^ 128) : tracks 2 (sigAdd a b false).sum e (t + u) := by
  have hsum := sameSide.const_add (c := a.toNat) hb (by omega)
  rwa [tracks, sigAdd_of_add h, add_mul, ← ha, Nat.cast_add]

theorem tracks_sigAdd_of_sub {a b : Word} {e : ℤ} {t u : ℚ} (ha : isExactAt a e t) (hb : tracks 2 b e u)
    (heven : a.toNat % 2 = 0) (h : b.toNat ≤ a.toNat) : tracks 2 (sigAdd a b true).sum e (t - u) := by
  have hdiff := sameSide.const_sub (c := a.toNat) hb (by omega)
  rwa [tracks, sigAdd_of_sub h, sub_mul, ← ha, Nat.cast_sub h]

theorem isExactAt_sigAdd_of_sub {a b : Word} {e : ℤ} {t u : ℚ} (ha : isExactAt a e t) (hb : isExactAt b e u)
    (h : b.toNat ≤ a.toNat) : isExactAt (sigAdd a b true).sum e (t - u) := by
  rw [isExactAt, sigAdd_of_sub h, sub_mul, ← ha, ← hb, Nat.cast_sub h]

/-! ## Normalisation of the sum (R69 to R71) -/

/-- A significand in normal form stands for `t`, as exactly as the round bits need it (R71, R75). -/
structure NormalForm (n : Word × ℤ) (t : ℚ) : Prop where
  ge : 2 ^ 115 ≤ n.1.toNat
  lt : n.1.toNat < 2 ^ 116
  tracks : tracks 4 n.1 n.2 t

theorem tracks.coarsen {g g' : ℤ} {w : Word} {e : ℤ} {t : ℚ} (h : tracks g w e t) (hg : g ∣ g') : tracks g' w e t :=
  sameSide.coarsen h hg

/-- Shifting right with sticky by `n` and raising the exponent by `n` keeps what a significand stands for. -/
theorem tracks.srj {w : Word} {e : ℤ} {t : ℚ} {n : ℕ} (h : tracks (2 ^ (n + 1)) w e t) :
    tracks 2 (srj w n) (e + n) t := by
  have hshift := sameSide.srj h
  rwa [tracks, ← sub_sub, zpow_sub₀ two_ne_zero, zpow_natCast, ← mul_div_assoc]

/-- The carry bit of a sum (R69). -/
theorem carry_iff {sum : Word} (hlt : sum.toNat < 2 ^ 117) :
    (sum &&& (implicitBit <<< 4) != 0#128) = true ↔ 2 ^ 116 ≤ sum.toNat := by
  have hbit : implicitBit <<< 4 = BitVec.twoPow 128 116 := by decide
  rw [bne_iff_ne, hbit, and_twoPow_ne_zero_iff _ (by decide), ← BitVec.testBit_toNat,
    Nat.testBit_eq_decide_div_mod_eq, decide_eq_true_iff]
  omega

theorem carry_eq_srj (sum : Word) : (sum >>> 1) ||| (sum &&& 1#128) = srj sum 1 := by
  have hbit : sum.getLsbD 0 = (sum.toNat % 2 ^ 1 != 0) := by
    rw [Bool.eq_iff_iff, getLsbD_zero_iff, bne_iff_ne]
    omega
  rw [srj_eq_or_mod, and_one_eq_boolWord, hbit]

theorem normalizeSum_of_add {sum : Word} (e : ℤ) (hlt : sum.toNat < 2 ^ 117) :
    normalizeSum sum e false = if 2 ^ 116 ≤ sum.toNat then (srj sum 1, e + 1) else (sum, e) := by
  rw [normalizeSum, if_neg Bool.false_ne_true, carry_eq_srj]
  exact if_congr (carry_iff hlt) rfl rfl

theorem normalizeSum_of_sub (sum : Word) (e : ℤ) :
    normalizeSum sum e true =
      if sum.toNat < 2 ^ 115 then (sum <<< (clz128 sum - 12), e - (clz128 sum - 12 : ℕ)) else (sum, e) := by
  have hclz : clz128 (implicitBit <<< 3) = 12 := by decide
  rw [normalizeSum, if_pos rfl, hclz]
  rfl

theorem normalForm_of_add {sum : Word} {e : ℤ} {t : ℚ} (hge : 2 ^ 115 ≤ sum.toNat) (hlt : sum.toNat < 2 ^ 117)
    (h : tracks 2 sum e t) : NormalForm (normalizeSum sum e false) t := by
  have hcoarse : tracks 4 sum e t := h.coarsen (by decide)
  rw [normalizeSum_of_add e hlt]
  split_ifs with hcarry
  · have hlow := srj_lt_iff sum 1 (2 ^ 114)
    have hhigh := srj_lt_iff sum 1 (2 ^ 115)
    exact ⟨by dsimp only; omega, by dsimp only; omega, (tracks.srj (n := 1) hcoarse).coarsen (by decide)⟩
  · exact ⟨hge, not_le.mp hcarry, hcoarse⟩

theorem shiftLeft_toNat_of_lt {w : Word} {n : ℕ} (h : w.toNat * 2 ^ n < 2 ^ 128) :
    (w <<< n).toNat = w.toNat * 2 ^ n := by
  rw [BitVec.toNat_shiftLeft, Nat.shiftLeft_eq, Nat.mod_eq_of_lt h]

theorem two_zpow_sub_sub (e : ℤ) (n : ℕ) : (2 : ℚ) ^ (16498 - (e - n)) = 2 ^ (16498 - e) * 2 ^ n := by
  rw [← sub_add, zpow_add₀ two_ne_zero, zpow_natCast]

theorem isExactAt.shiftLeft {w : Word} {e : ℤ} {t : ℚ} {n : ℕ} (h : isExactAt w e t)
    (hlt : w.toNat * 2 ^ n < 2 ^ 128) : isExactAt (w <<< n) (e - n) t := by
  rw [isExactAt, shiftLeft_toNat_of_lt hlt, two_zpow_sub_sub, ← mul_assoc, ← h]
  push_cast
  rfl

/-- Shifting left by `n` and lowering the exponent by `n` keeps what a significand stands for, more coarsely by `n`
bits. -/
theorem tracks.shiftLeft {g : ℤ} {w : Word} {e : ℤ} {t : ℚ} {n : ℕ} (h : tracks g w e t)
    (hlt : w.toNat * 2 ^ n < 2 ^ 128) : tracks (2 ^ n * g) (w <<< n) (e - n) t := by
  have hscale := sameSide.scale h (pow_pos (two_pos (α := ℤ)) n)
  rw [tracks, shiftLeft_toNat_of_lt hlt, two_zpow_sub_sub, ← mul_assoc, mul_comm _ ((2 : ℚ) ^ n), Nat.mul_comm]
  exact_mod_cast hscale

theorem normalForm_of_sub {sum : Word} {e : ℤ} {t : ℚ} (hne : sum ≠ 0#128) (hlt : sum.toNat < 2 ^ 116)
    (h : tracks 2 sum e t) (hexact : sum.toNat < 2 ^ 114 → isExactAt sum e t) :
    NormalForm (normalizeSum sum e true) t := by
  rw [normalizeSum_of_sub]
  split_ifs with hcancel
  · obtain ⟨hlow, hhigh⟩ : 2 ^ 115 ≤ sum.toNat * 2 ^ (clz128 sum - 12) ∧ sum.toNat * 2 ^ (clz128 sum - 12) < 2 ^ 116 :=
      clz128_shift hne (b := 115) hlt (by decide)
    have hroom : sum.toNat * 2 ^ (clz128 sum - 12) < 2 ^ 128 := hhigh.trans (by decide)
    refine ⟨?_, ?_, ?_⟩
    · rwa [shiftLeft_toNat_of_lt hroom]
    · rwa [shiftLeft_toNat_of_lt hroom]
    · by_cases hfar : sum.toNat < 2 ^ 114
      · exact ((hexact hfar).shiftLeft hroom).tracks 4
      · have hge : 127 - 114 ≤ clz128 sum := clz128_ge hne hcancel
        have hle : 114 < 128 - clz128 sum :=
          (Nat.pow_lt_pow_iff_right (by decide)).mp ((not_lt.mp hfar).trans_lt (clz128_bounds hne).2.2)
        have hone : clz128 sum - 12 = 1 := by omega
        rw [hone] at hroom ⊢
        exact h.shiftLeft hroom
  · exact ⟨not_lt.mp hcancel, hlt, h.coarsen (by decide)⟩

end Sys2Proof.Machine

/-! ## The general path up to the round unit (R65 to R73) -/

namespace Sys2Proof.Machine

/-- The magnitude of the exact sum or difference of the operands of the general path (R57, R60). -/
def exactMagnitude (xs ys : Word) : ℚ :=
  if (alignShift xs ys).isSub then
    magnitudeValue (absBits (majorOf xs ys)).toNat - magnitudeValue (absBits (minorOf xs ys)).toNat
  else magnitudeValue (absBits (majorOf xs ys)).toNat + magnitudeValue (absBits (minorOf xs ys)).toNat

/-- The significand adder's output for a pair of operands. -/
def alignedSum (xs ys : Word) : SigAddOut :=
  sigAdd (alignShift xs ys).sigA (alignShift xs ys).sigB (alignShift xs ys).isSub

section general

variable {xs ys : Word} (hx : OperandParts (majorOf xs ys)) (hy : OperandParts (minorOf xs ys))

include hx

theorem sigA_bounds : 2 ^ 115 ≤ (alignShift xs ys).sigA.toNat ∧ (alignShift xs ys).sigA.toNat < 2 ^ 116 ∧
    (alignShift xs ys).sigA.toNat % 2 = 0 := by
  have hge := hx.sig_ge
  have hlt := hx.sig_lt
  rw [sigA_toNat hx]
  omega

include hy

/-- The sum or difference stands for the exact one (R65, R67). -/
theorem alignedSum_tracks : tracks 2 (alignedSum xs ys).sum (alignShift xs ys).expA (exactMagnitude xs ys) := by
  obtain ⟨-, hlt, heven⟩ := sigA_bounds hx
  have hle := sigB_le_sigA hx hy
  rw [alignedSum, exactMagnitude]
  cases (alignShift xs ys).isSub with
  | true => exact tracks_sigAdd_of_sub (sigA_isExactAt hx) (sigB_tracks hx hy) heven hle
  | false => exact tracks_sigAdd_of_add (sigA_isExactAt hx) (sigB_tracks hx hy) heven (by omega)

/-- A difference below half the major significand comes from an alignment that drops nothing. -/
theorem alignedSum_isExactAt (hsub : (alignShift xs ys).isSub = true) (hlt : (alignedSum xs ys).sum.toNat < 2 ^ 114) :
    isExactAt (alignedSum xs ys).sum (alignShift xs ys).expA (exactMagnitude xs ys) := by
  obtain ⟨hge, -, -⟩ := sigA_bounds hx
  have hle := sigB_le_sigA hx hy
  rw [alignedSum, hsub] at hlt ⊢
  rw [sigAdd_of_sub hle] at hlt
  have hnear : (alignAmount xs ys).toNat ≤ 3 := by
    by_contra hfar
    have hsmall := sigB_lt hy (n := 2) (by decide) (by omega)
    omega
  rw [exactMagnitude, if_pos hsub]
  exact isExactAt_sigAdd_of_sub (sigA_isExactAt hx) (sigB_isExactAt hx hy hnear) hle

/-- A difference of 0 is exact cancellation (R66). -/
theorem exactMagnitude_of_zero (h : (alignedSum xs ys).zero = true) : exactMagnitude xs ys = 0 := by
  cases hsub : (alignShift xs ys).isSub with
  | false =>
    rw [alignedSum, hsub] at h
    cases h
  | true =>
    have hzero : (alignedSum xs ys).sum = 0#128 := by
      rw [alignedSum, hsub] at h ⊢
      exact beq_iff_eq.mp h
    have hexact := alignedSum_isExactAt hx hy hsub (by rw [hzero]; decide)
    rw [isExactAt, hzero, BitVec.toNat_zero, Nat.cast_zero, zero_eq_mul] at hexact
    exact hexact.resolve_right (zpow_ne_zero _ two_ne_zero)

/-- The normal form of the sum or difference stands for the exact one (R71). -/
theorem normalForm_alignedSum (h : (alignedSum xs ys).zero = false) :
    NormalForm (normalizeSum (alignedSum xs ys).sum (alignShift xs ys).expA (alignShift xs ys).isSub)
      (exactMagnitude xs ys) := by
  obtain ⟨hge, hlt, -⟩ := sigA_bounds hx
  have hle := sigB_le_sigA hx hy
  have htracks := alignedSum_tracks hx hy
  cases hsub : (alignShift xs ys).isSub with
  | true =>
    have hsum : (alignedSum xs ys).sum.toNat = (alignShift xs ys).sigA.toNat - (alignShift xs ys).sigB.toNat := by
      rw [alignedSum, hsub, sigAdd_of_sub hle]
    have hne : (alignedSum xs ys).sum ≠ 0#128 := by
      rw [alignedSum, hsub] at h ⊢
      exact beq_eq_false_iff_ne.mp h
    exact normalForm_of_sub hne (by omega) htracks (alignedSum_isExactAt hx hy hsub)
  | false =>
    have hsum : (alignedSum xs ys).sum.toNat = (alignShift xs ys).sigA.toNat + (alignShift xs ys).sigB.toNat := by
      rw [alignedSum, hsub, sigAdd_of_add (by omega)]
    exact normalForm_of_add (by omega) (by omega) htracks

end general

/-! ## Packing (R72, R73, R76) -/

/-- What the renormalizer hands to the round unit where there is no overflow: `k` is the exponent field, less 1 for a
normal result, and the packed magnitude is `k * 2^112` and the significand without its round bits. -/
structure Packable (sigN : Word) (expN : ℤ) (k : ℕ) (t : ℚ) : Prop where
  sig_lt : sigN.toNat < 2 ^ 116
  normal : k = 0 ∨ 2 ^ 115 ≤ sigN.toNat
  exp_le : k ≤ 32765
  fields : expN.toNat * 2 ^ 112 + sigN.toNat / 8 % 2 ^ 112 = k * 2 ^ 112 + sigN.toNat / 8
  tracks : tracks 4 sigN (k + 1) t

section renormalize

variable {sum : Word} {expA : ℤ} {isSub : Bool}

/-- R72. -/
theorem renormalize_of_overflow (h : 32767 ≤ (normalizeSum sum expA isSub).2) :
    renormalize sum expA isSub =
      { sigN := (normalizeSum sum expA isSub).1, expN := (normalizeSum sum expA isSub).2, ovf := true } :=
  if_pos h

/-- R73. -/
theorem renormalize_of_denormal (h : (normalizeSum sum expA isSub).2 ≤ 0) :
    renormalize sum expA isSub =
      { sigN := srj (normalizeSum sum expA isSub).1 (1 - (normalizeSum sum expA isSub).2).toNat, expN := 0,
        ovf := false } := by
  have hlow : ¬(32767 : ℤ) ≤ (normalizeSum sum expA isSub).2 := by omega
  exact (if_neg hlow).trans (if_pos h)

theorem renormalize_of_normal (hlow : 1 ≤ (normalizeSum sum expA isSub).2)
    (hhigh : (normalizeSum sum expA isSub).2 ≤ 32766) :
    renormalize sum expA isSub =
      { sigN := (normalizeSum sum expA isSub).1, expN := (normalizeSum sum expA isSub).2, ovf := false } := by
  have hover : ¬(32767 : ℤ) ≤ (normalizeSum sum expA isSub).2 := by omega
  have hunder : ¬(normalizeSum sum expA isSub).2 ≤ 0 := by omega
  exact (if_neg hover).trans (if_neg hunder)

end renormalize

/-- A shift by one bit or more needs no more of the sticky bit than the round bits do. -/
theorem packable_of_denormal {n : Word × ℤ} {t : ℚ} (h : NormalForm n t) (he : n.2 ≤ 0) :
    Packable (srj n.1 (1 - n.2).toNat) 0 0 t := by
  obtain ⟨-, hlt, htracks⟩ := h
  obtain ⟨m, hm⟩ : ∃ m : ℕ, (1 - n.2).toNat = m + 1 := ⟨(-n.2).toNat, by omega⟩
  have hexp : n.2 + ((m + 1 : ℕ) : ℤ) = ((0 : ℕ) : ℤ) + 1 := by omega
  have hfit : (srj n.1 (m + 1)).toNat < 2 * 2 ^ 114 := by
    rw [srj_lt_iff, Nat.pow_succ]
    have := Nat.two_pow_pos m
    omega
  have hcoarse : tracks (2 ^ (m + 1 + 1)) n.1 n.2 t := htracks.coarsen (pow_dvd_pow 2 (by omega : 2 ≤ m + 2))
  rw [hm]
  exact ⟨by omega, .inl rfl, by decide, by omega, hexp ▸ hcoarse.srj.coarsen (by decide)⟩

theorem packable_of_normal {n : Word × ℤ} {t : ℚ} (h : NormalForm n t) (hlow : 1 ≤ n.2) (hhigh : n.2 ≤ 32766) :
    Packable n.1 n.2 (n.2 - 1).toNat t := by
  obtain ⟨hge, hlt, htracks⟩ := h
  have hexp : n.2 = ((n.2 - 1).toNat : ℤ) + 1 := by omega
  exact ⟨hlt, .inr hge, by omega, by omega, hexp ▸ htracks⟩

/-- Without overflow the renormalizer's output can be packed (R72, R73). -/
theorem packable_of_normalForm {sum : Word} {expA : ℤ} {isSub : Bool} {t : ℚ}
    (h : NormalForm (normalizeSum sum expA isSub) t) (hovf : (renormalize sum expA isSub).ovf = false) :
    ∃ k, Packable (renormalize sum expA isSub).sigN (renormalize sum expA isSub).expN k t := by
  obtain hover | hunder | ⟨hlow, hhigh⟩ : 32767 ≤ (normalizeSum sum expA isSub).2 ∨
      (normalizeSum sum expA isSub).2 ≤ 0 ∨
      (1 ≤ (normalizeSum sum expA isSub).2 ∧ (normalizeSum sum expA isSub).2 ≤ 32766) := by omega
  · rw [renormalize_of_overflow hover] at hovf
    cases hovf
  · rw [renormalize_of_denormal hunder]
    exact ⟨_, packable_of_denormal h hunder⟩
  · rw [renormalize_of_normal hlow hhigh]
    exact ⟨_, packable_of_normal h hlow hhigh⟩

theorem roundBits_eq (sigN : Word) : roundBits sigN = sigN.toNat % 8 := by
  rw [roundBits, BitVec.toNat_and]
  exact Nat.and_two_pow_sub_one_eq_mod _ 3

/-- The three low bits of a number that stands for `q` tell where `q` lies above the number without them (R75). -/
theorem sameSide.low_bits {s : ℕ} {q : ℚ} (h : sameSide 4 s q) :
    ((8 * (s / 8) : ℕ) : ℚ) ≤ q ∧ q < ((8 * (s / 8) + 8 : ℕ) : ℚ) ∧
      (s % 8 = 0 ↔ q = ((8 * (s / 8) : ℕ) : ℚ)) ∧ (s % 8 < 4 ↔ q < ((8 * (s / 8) + 4 : ℕ) : ℚ)) ∧
      (4 < s % 8 ↔ ((8 * (s / 8) + 4 : ℕ) : ℚ) < q) := by
  have hside (m j : ℕ) (hm : m = 4 * j) : (s < m ↔ q < m) ∧ (m < s ↔ (m : ℚ) < q) := by
    obtain ⟨hlt, hgt⟩ := h j
    rw [hm]
    exact_mod_cast And.intro hlt hgt
  obtain ⟨hlow, hlow'⟩ := hside (8 * (s / 8)) (2 * (s / 8)) (by omega)
  obtain ⟨hmid, hmid'⟩ := hside (8 * (s / 8) + 4) (2 * (s / 8) + 1) (by omega)
  obtain ⟨hhigh, -⟩ := hside (8 * (s / 8) + 8) (2 * (s / 8) + 2) (by omega)
  have hle : ((8 * (s / 8) : ℕ) : ℚ) ≤ q := not_lt.mp (mt hlow.mpr (by omega))
  refine ⟨hle, hhigh.mp (by omega), ?_, ?_, ?_⟩
  · rw [← hle.ge_iff_eq', ← not_lt, ← hlow']
    omega
  · rw [← hmid]
    omega
  · rw [← hmid']
    omega

section packable

variable {sigN : Word} {expN : ℤ} {k : ℕ} {t : ℚ} (h : Packable sigN expN k t)
include h

/-- The packed magnitude and the next one, in units of the significand's lowest bit. -/
theorem Packable.magnitudes :
    magnitudeValue (k * 2 ^ 112 + sigN.toNat / 8) * 2 ^ (16498 - ((k : ℤ) + 1)) = ((8 * (sigN.toNat / 8) : ℕ) : ℚ) ∧
      magnitudeValue (k * 2 ^ 112 + sigN.toNat / 8 + 1) * 2 ^ (16498 - ((k : ℤ) + 1)) =
        ((8 * (sigN.toNat / 8) + 8 : ℕ) : ℚ) := by
  have hlt := h.sig_lt
  have hnormal := h.normal
  have hexp : (k : ℤ) - 16494 + (16498 - ((k : ℤ) + 1)) = (3 : ℕ) := by omega
  rw [Nat.add_assoc, magnitudeValue_of_parts (by omega) (by omega), magnitudeValue_of_parts (by omega) (by omega),
    mul_assoc, mul_assoc, ← zpow_add₀ two_ne_zero, hexp, zpow_natCast]
  generalize sigN.toNat / 8 = m
  push_cast
  constructor <;> ring

/-- The round bits tell where the exact value lies between the packed magnitude and the next one (R75). -/
theorem Packable.bracketed : Bracketed (k * 2 ^ 112 + sigN.toNat / 8) (roundBits sigN) t := by
  have hunit : (0 : ℚ) < 2 ^ (16498 - ((k : ℤ) + 1)) := zpow_pos two_pos _
  obtain ⟨hp, hsucc⟩ := h.magnitudes
  obtain ⟨hlower, hupper, hexact, hbelow, habove⟩ := sameSide.low_bits h.tracks
  have hmid : (magnitudeValue (k * 2 ^ 112 + sigN.toNat / 8) + magnitudeValue (k * 2 ^ 112 + sigN.toNat / 8 + 1)) *
      2 ^ (16498 - ((k : ℤ) + 1)) = 2 * ((8 * (sigN.toNat / 8) + 4 : ℕ) : ℚ) := by
    rw [add_mul, hp, hsucc]
    generalize sigN.toNat / 8 = m
    push_cast
    ring
  rw [roundBits_eq]
  refine ⟨le_of_mul_le_mul_right ?_ hunit, lt_of_mul_lt_mul_right ?_ hunit.le, ?_, ?_, ?_⟩
  · rwa [hp]
  · rwa [hsucc]
  · rw [hexact, ← hp, mul_left_inj' hunit.ne']
  · rw [hbelow, ← mul_lt_mul_iff_left₀ (b := 2 * t) hunit, hmid, mul_assoc, mul_lt_mul_iff_right₀ two_pos]
  · rw [habove, ← mul_lt_mul_iff_left₀ (c := 2 * t) hunit, hmid, mul_assoc, mul_lt_mul_iff_right₀ two_pos]

/-- The significand's bits above the round bits and the exponent field make up the magnitude (R76). -/
theorem Packable.pack_toNat : (pack sigN expN 0#128).toNat = k * 2 ^ 112 + sigN.toNat / 8 := by
  have hlt := h.sig_lt
  have hexp := h.exp_le
  have hfields := h.fields
  have hlow : sigN.toNat / 8 % 2 ^ 112 < 2 ^ 112 := Nat.mod_lt _ (Nat.two_pow_pos 112)
  have hsig : ((sigN >>> 3) &&& significandMask).toNat = sigN.toNat / 8 % 2 ^ 112 := by
    rw [← sigField, sigField_toNat, BitVec.toNat_ushiftRight, Nat.shiftRight_eq_div_pow]
  have hfield : (BitVec.ofNat 128 expN.toNat <<< 112).toNat = 2 ^ 112 * expN.toNat := by
    rw [BitVec.toNat_shiftLeft, BitVec.toNat_ofNat, Nat.shiftLeft_eq]
    omega
  rw [pack, BitVec.or_zero, BitVec.toNat_or, hsig, hfield, Nat.or_comm, ← Nat.two_pow_add_eq_or_of_lt hlow,
    Nat.mul_comm, hfields]

end packable

/-- The sign is put into a packed magnitude as `negate` puts it (R44, R76). -/
theorem or_signBit_of_lt {x : Word} (h : x.toNat < 2 ^ 127) : x ||| signBit = negate x := by
  have hsign := signField_eq x
  rw [decide_eq_false (not_le.mpr h), signField] at hsign
  apply BitVec.eq_of_getLsbD_eq
  intro i hi
  rw [BitVec.getLsbD_or, negate_getLsbD, signBit_getLsbD i hi]
  by_cases h127 : i = 127
  · rw [h127, hsign]
    rfl
  · simp [h127]

theorem pack_signBit {sigN : Word} {expN : ℤ} (h : (pack sigN expN 0#128).toNat < 2 ^ 127) :
    pack sigN expN signBit = negate (pack sigN expN 0#128) := by
  rw [← or_signBit_of_lt h, pack, pack, BitVec.or_zero]

end Sys2Proof.Machine

/-! ## The special path on finite operands (R48, R53, R54) -/

namespace Sys2Proof.Machine

/-- The wraparound test of R48 holds for the zero magnitude, which wraps, and from the infinity on. -/
theorem wraparound_test_iff (x : Word) : absBits x - 1#128 ≥ infRep - 1#128 ↔ ¬nonzeroFinite x := by
  have hone : (1#128).toNat = 1 := rfl
  have hlt := (absBits x).isLt
  rw [nonzeroFinite_iff, ge_iff_le, BitVec.le_def, BitVec.toNat_sub, BitVec.toNat_sub, infRep_toNat, hone]
  omega

theorem specialEntry_iff (xs ys : Word) :
    specialEntry xs ys = true ↔ ¬nonzeroFinite xs ∨ ¬nonzeroFinite ys := by
  rw [specialEntry, Bool.or_eq_true, decide_eq_true_iff, decide_eq_true_iff, wraparound_test_iff, wraparound_test_iff]

theorem fadd_of_nonzeroFinite (rm : RoundingMode) {xs ys : Word} (hx : nonzeroFinite xs) (hy : nonzeroFinite ys) :
    fadd rm xs ys = faddGeneral rm xs ys := by
  have hentry : ¬specialEntry xs ys = true := by
    rw [specialEntry_iff, not_or, not_not, not_not]
    exact ⟨hx, hy⟩
  rw [fadd, special, if_neg hentry]

theorem fadd_of_special (rm : RoundingMode) {xs ys r : Word} (hentry : specialEntry xs ys = true)
    (h : specialSteps xs ys = some r) : fadd rm xs ys = { result := r, nx := false } := by
  rw [fadd, special, if_pos hentry, h]

theorem not_nonzeroFinite_of_isZero {x : Word} (h : isZero x = true) : ¬nonzeroFinite x := by
  rw [nonzeroFinite_iff, (isZero_iff_absBits x).mp h]
  decide

/-- A finite pattern is neither beyond the infinity nor the infinity. -/
theorem absBits_of_isFinite {x : Word} (h : isFinite x = true) : ¬absBits x > infRep ∧ absBits x ≠ infRep := by
  have hlt := (isFinite_iff_absBits x).mp h
  rw [gt_iff_lt, BitVec.lt_def, ← BitVec.toNat_ne_iff_ne, infRep_toNat]
  omega

/-- R53: a zero x gives y, and the AND of the patterns where y is a zero too. -/
theorem fadd_of_isZero_left (rm : RoundingMode) {xs ys : Word} (hx : isZero xs = true) (hy : isFinite ys = true) :
    fadd rm xs ys = { result := if absBits ys = 0#128 then xs &&& ys else ys, nx := false } := by
  obtain ⟨hxnan, hxinf⟩ := absBits_of_isFinite ((isFinite_iff xs).mpr (.inl hx))
  obtain ⟨hynan, hyinf⟩ := absBits_of_isFinite hy
  apply fadd_of_special
  · exact (specialEntry_iff xs ys).mpr (.inl (not_nonzeroFinite_of_isZero hx))
  · rw [specialSteps, if_neg hxnan, if_neg hynan, if_neg hxinf, if_neg hyinf, if_pos ((isZero_iff_absBits xs).mp hx)]

/-- R54: a zero y gives x. -/
theorem fadd_of_isZero_right (rm : RoundingMode) {xs ys : Word} (hx : nonzeroFinite xs) (hy : isZero ys = true) :
    fadd rm xs ys = { result := xs, nx := false } := by
  obtain ⟨hxnan, hxinf⟩ := absBits_of_isFinite ((isFinite_iff xs).mpr (.inr hx))
  obtain ⟨hynan, hyinf⟩ := absBits_of_isFinite ((isFinite_iff ys).mpr (.inl hy))
  have hxzero : absBits xs ≠ 0#128 := fun h => not_nonzeroFinite_of_isZero ((isZero_iff_absBits xs).mpr h) hx
  apply fadd_of_special
  · exact (specialEntry_iff xs ys).mpr (.inr (not_nonzeroFinite_of_isZero hy))
  · rw [specialSteps, if_neg hxnan, if_neg hynan, if_neg hxinf, if_neg hyinf, if_neg hxzero,
      if_pos ((isZero_iff_absBits ys).mp hy)]

theorem valueOf_of_absBits_zero {x : Word} (h : absBits x = 0#128) : valueOf x = 0 := by
  have hzero : magnitudeValue 0 = 0 := by simp [magnitudeValue]
  rw [valueOf_eq_magnitude, h, BitVec.toNat_zero, hzero, mul_zero]

theorem absBits_and_of_zero {x y : Word} (h : absBits y = 0#128) : absBits (x &&& y) = 0#128 := by
  rw [absBits, BitVec.and_assoc, ← absBits, h, BitVec.and_zero]

/-- A sum with a zero is exact. -/
theorem valueOf_fadd_of_isZero (rm : RoundingMode) {xs ys : Word} (hx : isFinite xs = true) (hy : isFinite ys = true)
    (h : isZero xs = true ∨ isZero ys = true) : valueOf (fadd rm xs ys).result = valueOf xs + valueOf ys := by
  by_cases hxzero : isZero xs = true
  · rw [fadd_of_isZero_left rm hxzero hy, valueOf_of_absBits_zero ((isZero_iff_absBits xs).mp hxzero), zero_add]
    dsimp only
    split_ifs with hyzero
    · rw [valueOf_of_absBits_zero (absBits_and_of_zero hyzero), valueOf_of_absBits_zero hyzero]
    · rfl
  · have hyzero := h.resolve_left hxzero
    rw [fadd_of_isZero_right rm (((isFinite_iff xs).mp hx).resolve_left hxzero) hyzero,
      valueOf_of_absBits_zero ((isZero_iff_absBits ys).mp hyzero), add_zero]

end Sys2Proof.Machine

/-! ## The rounded sum (R56, R76 to R84) -/

namespace Sys2Proof.Machine

/-! ### Signs -/

theorem signBit_eq_twoPow : signBit = BitVec.twoPow 128 127 := by decide

theorem and_signBit (x : Word) : x &&& signBit = if signField x then signBit else 0#128 := by
  rw [signBit_eq_twoPow, BitVec.and_twoPow, signField]

theorem isSub_eq (xs ys : Word) :
    (alignShift xs ys).isSub = (signField (majorOf xs ys) != signField (minorOf xs ys)) := by
  have hsign (x : Word) : (x &&& signBit != 0#128) = signField x := by
    rw [Bool.eq_iff_iff, bne_iff_ne, signBit_eq_twoPow, and_twoPow_ne_zero_iff x (by decide), signField]
  refine (hsign (majorOf xs ys ^^^ minorOf xs ys)).trans ?_
  rw [signField, BitVec.getLsbD_xor]
  rfl

theorem signR_eq (xs ys : Word) :
    (alignShift xs ys).signR = if signField (majorOf xs ys) then signBit else 0#128 := and_signBit _

/-- The exact sum has the major operand's sign (R57, R60). -/
theorem valueOf_add_valueOf (xs ys : Word) :
    valueOf xs + valueOf ys = (if signField (majorOf xs ys) then -1 else 1) * exactMagnitude xs ys := by
  have hsum : valueOf xs + valueOf ys = valueOf (majorOf xs ys) + valueOf (minorOf xs ys) := by
    rcases (majorOf_minorOf xs ys).2 with ⟨hx, hy⟩ | ⟨hx, hy⟩
    · rw [hx, hy]
    · rw [hx, hy, add_comm]
  rw [hsum, valueOf_eq_magnitude, valueOf_eq_magnitude, exactMagnitude, isSub_eq]
  cases signField (majorOf xs ys) <;> cases signField (minorOf xs ys) <;> simp <;> ring

/-! ### The round unit -/

section roundUnit

variable {sigN : Word} {expN : ℤ} {k : ℕ} {t : ℚ} (h : Packable sigN expN k t)
include h

theorem Packable.pack_lt : (pack sigN expN 0#128).toNat + 1 < 2 ^ 127 := by
  have hlt := h.sig_lt
  have hexp := h.exp_le
  rw [h.pack_toNat]
  omega

/-- Without overflow the round unit rounds the exact magnitude, with the sign `sign_r` (R75 to R80). -/
theorem Packable.isRounded_roundUnit (rm : RoundingMode) (neg : Bool) :
    isRounded rm ((if neg then -1 else 1) * t)
      (roundUnit sigN expN (if neg then signBit else 0#128) rm false).result := by
  have hbracket : Bracketed (pack sigN expN 0#128).toNat (roundBits sigN) t := h.pack_toNat ▸ h.bracketed
  cases neg with
  | false =>
    rw [if_neg Bool.false_ne_true, if_neg Bool.false_ne_true, one_mul]
    exact isRounded_roundIncrement hbracket h.pack_lt rm
  | true =>
    have hround := isRounded_roundIncrement_negate hbracket h.pack_lt rm
    rw [← pack_signBit (by have := h.pack_lt; omega)] at hround
    rw [if_pos rfl, if_pos rfl, neg_one_mul]
    exact hround

end roundUnit

/-! ### The general path -/

theorem faddGeneral_of_zero (rm : RoundingMode) {xs ys : Word} (h : (alignedSum xs ys).zero = true) :
    faddGeneral rm xs ys = { result := 0#128, nx := false } := if_pos h

/-- The renormalizer's output for a pair of operands. -/
def renormedSum (xs ys : Word) : RenormOut :=
  renormalize (alignedSum xs ys).sum (alignShift xs ys).expA (alignShift xs ys).isSub

theorem faddGeneral_of_nonzero (rm : RoundingMode) {xs ys : Word} (h : (alignedSum xs ys).zero = false) :
    faddGeneral rm xs ys =
      roundUnit (renormedSum xs ys).sigN (renormedSum xs ys).expN (alignShift xs ys).signR rm (renormedSum xs ys).ovf :=
  if_neg (by rw [← alignedSum, h]; exact Bool.false_ne_true)

theorem roundUnit_of_overflow (sigN : Word) (expN : ℤ) (signR : Word) (rm : RoundingMode) :
    roundUnit sigN expN signR rm true = { result := infRep ||| signR, nx := true } := rfl

/-- An overflow gives an infinity, of either sign (R83). -/
theorem not_isFinite_of_overflow (sigN : Word) (expN : ℤ) (neg : Bool) (rm : RoundingMode) :
    isFinite (roundUnit sigN expN (if neg then signBit else 0#128) rm true).result = false := by
  rw [roundUnit_of_overflow]
  cases neg <;> decide

theorem isRounded_faddGeneral (rm : RoundingMode) {xs ys : Word} (hx : nonzeroFinite xs) (hy : nonzeroFinite ys)
    (hfinite : isFinite (faddGeneral rm xs ys).result = true) :
    isRounded rm (valueOf xs + valueOf ys) (faddGeneral rm xs ys).result := by
  obtain ⟨hmajor, hminor⟩ : OperandParts (majorOf xs ys) ∧ OperandParts (minorOf xs ys) := by
    rcases (majorOf_minorOf xs ys).2 with ⟨hx', hy'⟩ | ⟨hx', hy'⟩
    · rw [hx', hy']
      exact ⟨operandParts hx, operandParts hy⟩
    · rw [hx', hy']
      exact ⟨operandParts hy, operandParts hx⟩
  rw [valueOf_add_valueOf]
  cases hzero : (alignedSum xs ys).zero with
  | true =>
    rw [exactMagnitude_of_zero hmajor hminor hzero, mul_zero, faddGeneral_of_zero rm hzero]
    exact isRounded_of_exact rm (valueOf_of_absBits_zero (by decide))
  | false =>
    rw [faddGeneral_of_nonzero rm hzero, signR_eq] at hfinite ⊢
    cases hovf : (renormedSum xs ys).ovf with
    | true =>
      rw [hovf, not_isFinite_of_overflow] at hfinite
      cases hfinite
    | false =>
      obtain ⟨k, hk⟩ := packable_of_normalForm (normalForm_alignedSum hmajor hminor hzero) hovf
      exact hk.isRounded_roundUnit rm _

/-- The exact result of a request is the sum of its operands after the sign flip of SUB (R44, R47). -/
theorem exactOf_eq (i : Instr) : exactOf i = valueOf (xsOf i) + valueOf (ysOf i) := by
  cases i with
  | add rm a b => rfl
  | sub rm a b => rw [exactOf, xsOf, ysOf, valueOf_negate, sub_eq_add_neg]

/-- Settles O30: a sum with a zero is exact. On the general path the aligned, added and normalised significand stands
for the exact sum as exactly as the three round bits need it, and the increment of each mode goes by them. -/
theorem finiteResultIsRoundedExactResult : Obligations.FiniteResultIsRoundedExactResult := by
  intro i s hx hy
  refine ⟨_, exec_eq_present i s, fun hfinite => ?_⟩
  rw [State.present_result, answerOf] at hfinite ⊢
  rw [exactOf_eq]
  by_cases hzero : isZero (xsOf i) = true ∨ isZero (ysOf i) = true
  · exact isRounded_of_exact i.rm (valueOf_fadd_of_isZero i.rm hx hy hzero)
  · obtain ⟨hxne, hyne⟩ := not_or.mp hzero
    have hx' := ((isFinite_iff _).mp hx).resolve_left hxne
    have hy' := ((isFinite_iff _).mp hy).resolve_left hyne
    rw [fadd_of_nonzeroFinite i.rm hx' hy'] at hfinite ⊢
    exact isRounded_faddGeneral i.rm hx' hy' hfinite

end Sys2Proof.Machine

/-! ## ADD and SUB present FADD's response (R45, R46) -/

namespace Sys2Proof.Machine

/-- Settles O36: `negate` is the exclusive or with `SIGN_BIT` (R44). -/
theorem subIsAddOfNegated : Obligations.SubIsAddOfNegated :=
  fun _ _ _ _ => rfl

/-- Settles O38: `State.present`, field by field. -/
theorem addCompletes : Obligations.AddCompletes :=
  fun _ _ _ _ => rfl

/-- Settles O39: `State.present`, field by field. -/
theorem subCompletes : Obligations.SubCompletes :=
  fun _ _ _ _ => rfl

theorem exec_of_fadd {i : Instr} {r : Response} (h : fadd i.rm (xsOf i) (ysOf i) = r) (s : State) :
    exec i s = .next (s.present r) := by
  rw [exec_eq_present, answerOf, h]

end Sys2Proof.Machine

/-! ## The classes that enter the special path (R48, R55) -/

namespace Sys2Proof.Machine

theorem isNaN_iff_absBits (x : Word) : isNaN x = true ↔ infRep < absBits x := by
  rw [isNaN, Bool.or_eq_true, isQuietNaN_iff_absBits, isSignalingNaN_iff_absBits, ← and_or_left]
  exact and_iff_left (ne_or_eq _ _)

theorem isNaN_eq_false_iff (x : Word) : isNaN x = false ↔ ¬absBits x > infRep := by
  rw [gt_iff_lt, ← isNaN_iff_absBits, Bool.not_eq_true]

theorem isNaN_of_isFinite {x : Word} (h : isFinite x = true) : isNaN x = false :=
  (isNaN_eq_false_iff x).mpr (absBits_of_isFinite h).1

theorem isNaN_of_isInfinite {x : Word} (h : isInfinite x = true) : isNaN x = false := by
  rw [isNaN_eq_false_iff, (isInfinite_iff_absBits x).mp h]
  decide

theorem isFinite_of_isZero {x : Word} (h : isZero x = true) : isFinite x = true :=
  (isFinite_iff x).mpr (.inl h)

/-- The general path takes the magnitudes that none of the tests of R49 to R54 names. -/
theorem nonzeroFinite_iff_tests (x : Word) :
    nonzeroFinite x ↔ ¬absBits x > infRep ∧ absBits x ≠ infRep ∧ absBits x ≠ 0#128 := by
  rw [nonzeroFinite_iff, gt_iff_lt, BitVec.lt_def, ← BitVec.toNat_ne_iff_ne, ← BitVec.toNat_ne_iff_ne, infRep_toNat,
    BitVec.toNat_zero]
  omega

theorem not_nonzeroFinite_iff (x : Word) :
    ¬nonzeroFinite x ↔ isZero x = true ∨ isInfinite x = true ∨ isNaN x = true := by
  rw [nonzeroFinite_iff_tests, isZero_iff_absBits, isInfinite_iff_absBits, isNaN_iff_absBits]
  tauto

/-- A pattern that is no NaN is an infinity or finite (R37). -/
theorem isInfinite_or_isFinite {x : Word} (h : isNaN x = false) : isInfinite x = true ∨ isFinite x = true := by
  by_cases hx : nonzeroFinite x
  · exact .inr ((isFinite_iff x).mpr (.inr hx))
  · obtain hzero | hinf | hnan := (not_nonzeroFinite_iff x).mp hx
    · exact .inr (isFinite_of_isZero hzero)
    · exact .inl hinf
    · rw [h] at hnan
      cases hnan

/-- A step without a result is one that does not match, and after which none does. -/
theorem step_eq_none_iff {c : Prop} [Decidable c] (r : Word) (next : Option Word) :
    (if c then some r else next) = none ↔ ¬c ∧ next = none := by
  split_ifs with h <;> simp [h]

/-- R55: none of the six steps matches exactly when both operands are normal or denormal. -/
theorem specialSteps_eq_none_iff (xs ys : Word) : specialSteps xs ys = none ↔ nonzeroFinite xs ∧ nonzeroFinite ys := by
  rw [nonzeroFinite_iff_tests, nonzeroFinite_iff_tests, specialSteps, step_eq_none_iff, step_eq_none_iff,
    step_eq_none_iff, step_eq_none_iff, step_eq_none_iff, step_eq_none_iff]
  exact ⟨fun ⟨hxnan, hynan, hxinf, hyinf, hxzero, hyzero, _⟩ => ⟨⟨hxnan, hxinf, hxzero⟩, hynan, hyinf, hyzero⟩,
    fun ⟨⟨hxnan, hxinf, hxzero⟩, hynan, hyinf, hyzero⟩ => ⟨hxnan, hynan, hxinf, hyinf, hxzero, hyzero, rfl⟩⟩

/-- The entry condition of R48 is exact, so what it lets through the steps answer. -/
theorem special_eq_none_iff (xs ys : Word) : special xs ys = none ↔ nonzeroFinite xs ∧ nonzeroFinite ys := by
  rw [special, ite_eq_right_iff, specialEntry_iff, specialSteps_eq_none_iff, ← not_and_or, not_imp_self]

/-- Settles O11: the wraparound test of R48 fails for the normal and the denormal magnitudes alone, and these are the
magnitudes that no step takes. -/
theorem specialPathEntry : Obligations.SpecialPathEntry := by
  intro xs ys
  refine ⟨?_, fun hentry => ?_, special_eq_none_iff xs ys⟩
  · rw [specialEntry_iff, not_nonzeroFinite_iff, not_nonzeroFinite_iff, or_assoc, or_assoc]
  · rw [← Option.ne_none_iff_isSome, Ne, specialSteps_eq_none_iff, not_and_or]
    exact (specialEntry_iff xs ys).mp hentry

end Sys2Proof.Machine

/-! ## Magnitude and sign make up a pattern (R35, R44) -/

namespace Sys2Proof.Machine

theorem eq_of_absBits_of_signField {x y : Word} (habs : absBits x = absBits y) (hsign : signField x = signField y) :
    x = y := by
  have habs' := congrArg BitVec.toNat habs
  rw [absBits_toNat, absBits_toNat] at habs'
  rw [signField_eq, signField_eq, decide_eq_decide] at hsign
  have hx := x.isLt
  have hy := y.isLt
  apply BitVec.eq_of_toNat_eq
  omega

theorem eq_negate_iff (x y : Word) : y = negate x ↔ absBits x = absBits y ∧ signField x ≠ signField y := by
  constructor
  · rintro rfl
    rw [absBits_negate, signField_negate]
    exact ⟨rfl, (Bool.not_ne_self _).symm⟩
  · rintro ⟨habs, hsign⟩
    apply eq_of_absBits_of_signField
    · rw [absBits_negate, habs]
    · rw [signField_negate]
      exact Bool.eq_not.mpr hsign.symm

/-- The test of R51 for operands of equal magnitude and opposite signs. -/
theorem xor_eq_signBit_iff (x y : Word) : x ^^^ y = signBit ↔ absBits x = absBits y ∧ signField x ≠ signField y := by
  rw [← eq_negate_iff, negate]
  constructor
  · intro h
    rw [← h, ← BitVec.xor_assoc, BitVec.xor_self, BitVec.zero_xor]
  · rintro rfl
    rw [← BitVec.xor_assoc, BitVec.xor_self, BitVec.zero_xor]

section negate

variable {x : Word}

theorem isInfinite_negate (h : isInfinite x = true) : isInfinite (negate x) = true := by
  rwa [isInfinite_iff_absBits, absBits_negate, ← isInfinite_iff_absBits]

theorem isZero_negate (h : isZero x = true) : isZero (negate x) = true := by
  rwa [isZero_iff_absBits, absBits_negate, ← isZero_iff_absBits]

theorem nonzeroFinite_negate (h : nonzeroFinite x) : nonzeroFinite (negate x) := by
  rwa [nonzeroFinite_iff, absBits_negate, ← nonzeroFinite_iff]

end negate

/-- The two zeros (R37). -/
theorem eq_of_isZero {x : Word} (h : isZero x = true) : x = if signField x then signBit else 0#128 := by
  rw [isZero_iff_absBits] at h
  apply eq_of_absBits_of_signField
  · rw [h]
    cases signField x <;> decide
  · cases signField x <;> decide

theorem eq_zero_or_eq_signBit {x : Word} (h : isZero x = true) : x = 0#128 ∨ x = signBit := by
  have hx := eq_of_isZero h
  cases hsign : signField x with
  | false => exact .inl (by simpa [hsign] using hx)
  | true => exact .inr (by simpa [hsign] using hx)

end Sys2Proof.Machine

/-! ## The steps of the special path (R49 to R54) -/

namespace Sys2Proof.Machine

section steps

variable (rm : RoundingMode) {xs ys : Word}

theorem specialEntry_left (h : isZero xs = true ∨ isInfinite xs = true ∨ isNaN xs = true) :
    specialEntry xs ys = true :=
  (specialEntry_iff xs ys).mpr (.inl ((not_nonzeroFinite_iff xs).mpr h))

theorem specialEntry_right (h : isZero ys = true ∨ isInfinite ys = true ∨ isNaN ys = true) :
    specialEntry xs ys = true :=
  (specialEntry_iff xs ys).mpr (.inr ((not_nonzeroFinite_iff ys).mpr h))

/-- R49. -/
theorem fadd_of_isNaN_left (hx : isNaN xs = true) : fadd rm xs ys = { result := xs ||| quietBit, nx := false } := by
  apply fadd_of_special rm (specialEntry_left (.inr (.inr hx)))
  rw [specialSteps, if_pos ((isNaN_iff_absBits xs).mp hx)]

/-- R50. -/
theorem fadd_of_isNaN_right (hx : isNaN xs = false) (hy : isNaN ys = true) :
    fadd rm xs ys = { result := ys ||| quietBit, nx := false } := by
  apply fadd_of_special rm (specialEntry_right (.inr (.inr hy)))
  rw [specialSteps, if_neg ((isNaN_eq_false_iff xs).mp hx), if_pos ((isNaN_iff_absBits ys).mp hy)]

/-- R51. -/
theorem fadd_of_isInfinite_left (hx : isInfinite xs = true) (hy : isNaN ys = false) :
    fadd rm xs ys = { result := if xs ^^^ ys = signBit then qnanRep else xs, nx := false } := by
  apply fadd_of_special rm (specialEntry_left (.inr (.inl hx)))
  rw [specialSteps, if_neg ((isNaN_eq_false_iff xs).mp (isNaN_of_isInfinite hx)),
    if_neg ((isNaN_eq_false_iff ys).mp hy), if_pos ((isInfinite_iff_absBits xs).mp hx)]

/-- R52. -/
theorem fadd_of_isInfinite_right (hx : isFinite xs = true) (hy : isInfinite ys = true) :
    fadd rm xs ys = { result := ys, nx := false } := by
  obtain ⟨hxnan, hxinf⟩ := absBits_of_isFinite hx
  apply fadd_of_special rm (specialEntry_right (.inr (.inl hy)))
  rw [specialSteps, if_neg hxnan, if_neg ((isNaN_eq_false_iff ys).mp (isNaN_of_isInfinite hy)), if_neg hxinf,
    if_pos ((isInfinite_iff_absBits ys).mp hy)]

/-- R51, where y is finite. -/
theorem fadd_of_isInfinite_left_of_isFinite (hx : isInfinite xs = true) (hy : isFinite ys = true) :
    fadd rm xs ys = { result := xs, nx := false } := by
  have hopposite : ¬xs ^^^ ys = signBit := fun h =>
    (absBits_of_isFinite hy).2 (((xor_eq_signBit_iff xs ys).mp h).1 ▸ (isInfinite_iff_absBits xs).mp hx)
  rw [fadd_of_isInfinite_left rm hx (isNaN_of_isFinite hy), if_neg hopposite]

/-- R53, where y is not zero. -/
theorem fadd_of_isZero_left_of_nonzeroFinite (hx : isZero xs = true) (hy : nonzeroFinite ys) :
    fadd rm xs ys = { result := ys, nx := false } := by
  rw [fadd_of_isZero_left rm hx ((isFinite_iff ys).mpr (.inr hy)), if_neg ((nonzeroFinite_iff_tests ys).mp hy).2.2]

/-- R53, where both operands are zeros. -/
theorem fadd_of_isZero_both (hx : isZero xs = true) (hy : isZero ys = true) :
    fadd rm xs ys = { result := xs &&& ys, nx := false } := by
  rw [fadd_of_isZero_left rm hx (isFinite_of_isZero hy), if_pos ((isZero_iff_absBits ys).mp hy)]

end steps

/-- Settles O12: the first step matches. -/
theorem firstNaNWins : Obligations.FirstNaNWins :=
  fun i s hx => exec_of_fadd (fadd_of_isNaN_left i.rm hx) s

/-- Settles O13: the second step is the first that matches. -/
theorem secondNaNNext : Obligations.SecondNaNNext :=
  fun i s hx hy => exec_of_fadd (fadd_of_isNaN_right i.rm hx hy) s

/-- Settles O14: with x infinite, `xs ^ ys = SIGN_BIT` says that y is the infinity of the other sign. -/
theorem firstInfinity : Obligations.FirstInfinity := by
  intro i s hx hy
  have htest : xsOf i ^^^ ysOf i = signBit ↔
      (isInfinite (ysOf i) && signField (xsOf i) != signField (ysOf i)) = true := by
    rw [xor_eq_signBit_iff, Bool.and_eq_true, isInfinite_iff_absBits, bne_iff_ne, (isInfinite_iff_absBits _).mp hx,
      eq_comm]
  rw [exec_of_fadd (fadd_of_isInfinite_left i.rm hx hy) s]
  simp only [htest]

/-- Settles O15: no test of x matches, and y is no NaN. -/
theorem secondInfinity : Obligations.SecondInfinity :=
  fun i s hx hy => exec_of_fadd (fadd_of_isInfinite_right i.rm hx hy) s

/-- Settles O16: the AND of two zeros has their common sign bit. -/
theorem firstZero : Obligations.FirstZero := by
  intro i s hx hy
  by_cases hzero : isZero (ysOf i) = true
  · have hand : xsOf i &&& ysOf i = if signField (xsOf i) && signField (ysOf i) then signBit else 0#128 := by
      rw [eq_of_isZero hx, eq_of_isZero hzero]
      cases signField (xsOf i) <;> cases signField (ysOf i) <;> decide
    rw [exec_of_fadd (fadd_of_isZero_both i.rm hx hzero) s, if_pos hzero, hand]
  · have hfin := ((isFinite_iff _).mp hy).resolve_left hzero
    rw [exec_of_fadd (fadd_of_isZero_left_of_nonzeroFinite i.rm hx hfin) s, if_neg hzero]

/-- Settles O17: the last step is the only one that matches. -/
theorem secondZero : Obligations.SecondZero := by
  intro i s hx hy
  rw [Bool.or_eq_true] at hx
  exact exec_of_fadd (fadd_of_isZero_right i.rm hx hy) s

/-- Settles O34: `-0` is neutral for the AND of two zeros, and `+0` is not for `-0`. -/
theorem zeroIdentities : Obligations.ZeroIdentities := by
  intro rm x s hx
  have hneg : isZero signBit = true := by decide
  have hpos : isZero 0#128 = true := by decide
  suffices hfadd : fadd rm x signBit = { result := x, nx := false } ∧
      fadd rm x 0#128 = { result := if x = signBit then 0#128 else x, nx := false } from
    ⟨exec_of_fadd (i := .add rm x signBit) hfadd.1 s, exec_of_fadd (i := .add rm x 0#128) hfadd.2 s⟩
  by_cases hzero : isZero x = true
  · rw [fadd_of_isZero_both rm hzero hneg, fadd_of_isZero_both rm hzero hpos]
    obtain rfl | rfl := eq_zero_or_eq_signBit hzero <;> decide
  · have hne : x ≠ signBit := fun h => hzero (h ▸ hneg)
    rw [if_neg hne]
    obtain hinf | hfin := isInfinite_or_isFinite hx
    · exact ⟨fadd_of_isInfinite_left_of_isFinite rm hinf (isFinite_of_isZero hneg),
        fadd_of_isInfinite_left_of_isFinite rm hinf (isFinite_of_isZero hpos)⟩
    · have hx' := ((isFinite_iff x).mp hfin).resolve_left hzero
      exact ⟨fadd_of_isZero_right rm hx' hneg, fadd_of_isZero_right rm hx' hpos⟩

end Sys2Proof.Machine

/-! ## Exact cancellation and the order of the operands (R57, R66, R101) -/

namespace Sys2Proof.Machine

section opposite

variable {xs ys : Word}

theorem operandParts_major_minor (hx : nonzeroFinite xs) (hy : nonzeroFinite ys) :
    OperandParts (majorOf xs ys) ∧ OperandParts (minorOf xs ys) := by
  rcases (majorOf_minorOf xs ys).2 with ⟨hmajor, hminor⟩ | ⟨hmajor, hminor⟩
  · rw [hmajor, hminor]
    exact ⟨operandParts hx, operandParts hy⟩
  · rw [hmajor, hminor]
    exact ⟨operandParts hy, operandParts hx⟩

/-- Operands of equal magnitude have one significand and one exponent, so their difference is 0 (R66). -/
theorem alignedSum_zero_of_opposite (habs : absBits xs = absBits ys) (hsign : signField xs ≠ signField ys) :
    (alignedSum xs ys).zero = true := by
  obtain rfl : ys = negate xs := (eq_negate_iff xs ys).mpr ⟨habs, hsign⟩
  have hmajor : majorOf xs (negate xs) = xs := by simp [majorOf]
  have hminor : minorOf xs (negate xs) = negate xs := by simp [minorOf]
  have hsub : (alignShift xs (negate xs)).isSub = true := by
    rw [isSub_eq, hmajor, hminor, signField_negate]
    exact Bool.bne_not_self _
  have hsig : (alignShift xs (negate xs)).sigB = (alignShift xs (negate xs)).sigA := by
    simp [alignShift, alignAmount, hmajor, hminor, operandSig, operandExp, srj_zero]
  rw [alignedSum, hsub, hsig]
  simp [sigAdd]

/-- A difference of 0 comes from operands of equal magnitude and opposite signs (R66). -/
theorem opposite_of_alignedSum_zero (hx : nonzeroFinite xs) (hy : nonzeroFinite ys)
    (hzero : (alignedSum xs ys).zero = true) : absBits xs = absBits ys ∧ signField xs ≠ signField ys := by
  obtain ⟨hmajor, hminor⟩ := operandParts_major_minor hx hy
  have hexact := exactMagnitude_of_zero hmajor hminor hzero
  have hsub : (alignShift xs ys).isSub = true := by
    by_contra hadd
    rw [alignedSum, Bool.eq_false_of_not_eq_true hadd] at hzero
    cases hzero
  rw [exactMagnitude, if_pos hsub, sub_eq_zero, magnitudeValue_strictMono.injective.eq_iff, BitVec.toNat_inj] at hexact
  rw [isSub_eq, bne_iff_ne] at hsub
  rcases (majorOf_minorOf xs ys).2 with ⟨hmajor', hminor'⟩ | ⟨hmajor', hminor'⟩
  · rw [hmajor', hminor'] at hexact hsub
    exact ⟨hexact, hsub⟩
  · rw [hmajor', hminor'] at hexact hsub
    exact ⟨hexact.symm, hsub.symm⟩

end opposite

section order

variable {xs ys : Word}

theorem alignShift_comm_of_lt (h : absBits xs < absBits ys) : alignShift xs ys = alignShift ys xs := by
  have h' : ¬absBits ys < absBits xs := BitVec.lt_asymm h
  simp [alignShift, alignAmount, majorOf, minorOf, h, h']

/-- The align shifter sorts its operands by magnitude, so their order matters for equal magnitudes alone (R57). -/
theorem alignShift_comm (h : absBits xs ≠ absBits ys) : alignShift xs ys = alignShift ys xs := by
  by_cases hlt : absBits xs < absBits ys
  · exact alignShift_comm_of_lt hlt
  · exact (alignShift_comm_of_lt (BitVec.lt_of_le_ne (BitVec.not_lt.mp hlt) h.symm)).symm

theorem faddGeneral_comm (rm : RoundingMode) (xs ys : Word) : faddGeneral rm xs ys = faddGeneral rm ys xs := by
  by_cases habs : absBits xs = absBits ys
  · by_cases hsign : signField xs = signField ys
    · rw [eq_of_absBits_of_signField habs hsign]
    · rw [faddGeneral_of_zero rm (alignedSum_zero_of_opposite habs hsign),
        faddGeneral_of_zero rm (alignedSum_zero_of_opposite habs.symm (Ne.symm hsign))]
  · rw [faddGeneral, faddGeneral, alignShift_comm habs]

end order

/-- Settles O35: the two zeros have the AND `+0`, and on the general path the significands cancel. -/
theorem cancellationIsPositiveZero : Obligations.CancellationIsPositiveZero := by
  intro rm x s hx
  suffices hfadd : fadd rm x (negate x) = { result := 0#128, nx := false } from
    ⟨exec_of_fadd (i := .add rm x (negate x)) hfadd s, exec_of_fadd (i := .sub rm x x) hfadd s⟩
  obtain hzero | hx' := (isFinite_iff x).mp hx
  · obtain rfl | rfl := eq_zero_or_eq_signBit hzero <;> exact fadd_of_isZero_both rm (by decide) (by decide)
  · obtain ⟨habs, hsign⟩ := (eq_negate_iff x (negate x)).mp rfl
    rw [fadd_of_nonzeroFinite rm hx' (nonzeroFinite_negate hx'), faddGeneral_of_zero rm (alignedSum_zero_of_opposite habs hsign)]

section comm

variable (rm : RoundingMode) {x y : Word}

theorem fadd_comm_of_isInfinite (hx : isInfinite x = true) (hy : isInfinite y = true) : fadd rm x y = fadd rm y x := by
  rw [fadd_of_isInfinite_left rm hx (isNaN_of_isInfinite hy), fadd_of_isInfinite_left rm hy (isNaN_of_isInfinite hx),
    BitVec.xor_comm y x]
  split_ifs with hopposite
  · rfl
  · have habs : absBits x = absBits y := by
      rw [(isInfinite_iff_absBits x).mp hx, (isInfinite_iff_absBits y).mp hy]
    have hsign : signField x = signField y := by
      by_contra hne
      exact hopposite ((xor_eq_signBit_iff x y).mpr ⟨habs, hne⟩)
    rw [eq_of_absBits_of_signField habs hsign]

theorem fadd_comm_of_isFinite (hx : isFinite x = true) (hy : isFinite y = true) : fadd rm x y = fadd rm y x := by
  obtain hx | hx := (isFinite_iff x).mp hx <;> obtain hy | hy := (isFinite_iff y).mp hy
  · rw [fadd_of_isZero_both rm hx hy, fadd_of_isZero_both rm hy hx, BitVec.and_comm]
  · rw [fadd_of_isZero_left_of_nonzeroFinite rm hx hy, fadd_of_isZero_right rm hy hx]
  · rw [fadd_of_isZero_right rm hx hy, fadd_of_isZero_left_of_nonzeroFinite rm hy hx]
  · rw [fadd_of_nonzeroFinite rm hx hy, fadd_of_nonzeroFinite rm hy hx, faddGeneral_comm]

theorem fadd_comm_of_not_isNaN (hx : isNaN x = false) (hy : isNaN y = false) : fadd rm x y = fadd rm y x := by
  obtain hx | hx := isInfinite_or_isFinite hx <;> obtain hy | hy := isInfinite_or_isFinite hy
  · exact fadd_comm_of_isInfinite rm hx hy
  · rw [fadd_of_isInfinite_left_of_isFinite rm hx hy, fadd_of_isInfinite_right rm hy hx]
  · rw [fadd_of_isInfinite_right rm hx hy, fadd_of_isInfinite_left_of_isFinite rm hy hx]
  · exact fadd_comm_of_isFinite rm hx hy

theorem fadd_comm (h : (isNaN x && isNaN y) = false) : fadd rm x y = fadd rm y x := by
  cases hx : isNaN x <;> cases hy : isNaN y
  · exact fadd_comm_of_not_isNaN rm hx hy
  · rw [fadd_of_isNaN_right rm hx hy, fadd_of_isNaN_left rm hy]
  · rw [fadd_of_isNaN_left rm hx, fadd_of_isNaN_right rm hy hx]
  · rw [hx, hy] at h
    cases h

end comm

/-- Settles O33: a single NaN is returned from either side, and the other operands are treated alike in both orders; of
two NaNs the first is returned. -/
theorem addCommutes : Obligations.AddCommutes := by
  intro rm a b s
  refine ⟨fun h => ?_, fun h => ?_⟩
  · exact exec_of_fadd (i := .add rm a b) (fadd_comm rm h) s
  · obtain ⟨ha, hb⟩ := Bool.and_eq_true_iff.mp h
    rw [fadd_of_isNaN_left rm ha, fadd_of_isNaN_left rm hb, Response.mk.injEq, and_iff_left rfl]

end Sys2Proof.Machine

/-! ## Operands of the other sign (R101) -/

namespace Sys2Proof.Machine

/-- The response with the sign of the result flipped (R44). -/
def Response.opposite (r : Response) : Response := { result := negate r.result, nx := r.nx }

@[simp] theorem Response.opposite_opposite (r : Response) : r.opposite.opposite = r := by
  simp [Response.opposite]

@[simp] theorem mirrored_mirrored (rm : RoundingMode) : mirrored (mirrored rm) = rm := by cases rm <;> rfl

section operands

variable (xs ys : Word)

@[simp] theorem operandExp_negate : operandExp (negate xs) = operandExp xs := by simp [operandExp]

@[simp] theorem operandSig_negate : operandSig (negate xs) = operandSig xs := by simp [operandSig]

@[simp] theorem majorOf_negate : majorOf (negate xs) (negate ys) = negate (majorOf xs ys) := by
  simp [majorOf, apply_ite negate]

@[simp] theorem minorOf_negate : minorOf (negate xs) (negate ys) = negate (minorOf xs ys) := by
  simp [minorOf, apply_ite negate]

@[simp] theorem alignAmount_negate : alignAmount (negate xs) (negate ys) = alignAmount xs ys := by simp [alignAmount]

@[simp] theorem alignShift_sigA_negate : (alignShift (negate xs) (negate ys)).sigA = (alignShift xs ys).sigA := by
  simp [alignShift]

@[simp] theorem alignShift_sigB_negate : (alignShift (negate xs) (negate ys)).sigB = (alignShift xs ys).sigB := by
  simp [alignShift]

@[simp] theorem alignShift_expA_negate : (alignShift (negate xs) (negate ys)).expA = (alignShift xs ys).expA := by
  simp [alignShift]

@[simp] theorem alignShift_isSub_negate : (alignShift (negate xs) (negate ys)).isSub = (alignShift xs ys).isSub := by
  simp [isSub_eq]

@[simp] theorem alignedSum_negate : alignedSum (negate xs) (negate ys) = alignedSum xs ys := by simp [alignedSum]

@[simp] theorem renormedSum_negate : renormedSum (negate xs) (negate ys) = renormedSum xs ys := by simp [renormedSum]

end operands

/-! ### The round unit -/

theorem roundIncrement_cases (rm : RoundingMode) (rgs : ℕ) (signR r : Word) :
    roundIncrement rm rgs signR r = r ∨ roundIncrement rm rgs signR r = r + 1#128 := by
  cases rm with
  | nearest =>
    rw [roundIncrement_nearest]
    exact (ite_eq_or_eq _ _ _).symm
  | downward => exact (ite_eq_or_eq _ _ _).symm
  | upward => exact (ite_eq_or_eq _ _ _).symm
  | towardZero => exact .inl rfl

section roundUnit

variable {sigN : Word} {expN : ℤ} {ovf : Bool}
  (hpack : ovf = false → (pack sigN expN 0#128).toNat < 32767 * 2 ^ 112) (rm : RoundingMode)
include hpack

theorem roundUnit_signBit :
    roundUnit sigN expN signBit rm ovf = (roundUnit sigN expN 0#128 (mirrored rm) ovf).opposite := by
  cases ovf with
  | true =>
    rw [roundUnit_of_overflow, roundUnit_of_overflow]
    decide
  | false => simp [roundUnit, Response.opposite, pack_signBit ((hpack rfl).trans (by decide)), roundIncrement_negate]

/-- Rounding a magnitude with the other sign is rounding it in the mirrored mode (R77 to R80, R101). -/
theorem roundUnit_opposite (neg : Bool) :
    roundUnit sigN expN (if !neg then signBit else 0#128) rm ovf =
      (roundUnit sigN expN (if neg then signBit else 0#128) (mirrored rm) ovf).opposite := by
  cases neg with
  | false => exact roundUnit_signBit hpack rm
  | true =>
    rw [if_pos rfl, roundUnit_signBit hpack, Response.opposite_opposite, mirrored_mirrored]
    rfl

theorem isNaN_roundUnit_zero : isNaN (roundUnit sigN expN 0#128 rm ovf).result = false := by
  cases ovf with
  | true =>
    rw [roundUnit_of_overflow]
    decide
  | false =>
    have hlt := hpack rfl
    rw [isNaN_eq_false_iff, gt_iff_lt, BitVec.lt_def, absBits_toNat, infRep_toNat]
    obtain hkept | hnext : (roundUnit sigN expN 0#128 rm false).result = pack sigN expN 0#128 ∨
        (roundUnit sigN expN 0#128 rm false).result = pack sigN expN 0#128 + 1#128 := roundIncrement_cases ..
    · rw [hkept]
      omega
    · rw [hnext, add_one_toNat (by omega)]
      omega

/-- An increment of a finite magnitude goes no further than the infinity (R81, R84). -/
theorem isNaN_roundUnit (neg : Bool) :
    isNaN (roundUnit sigN expN (if neg then signBit else 0#128) rm ovf).result = false := by
  cases neg with
  | false => exact isNaN_roundUnit_zero hpack rm
  | true =>
    rw [if_pos rfl, roundUnit_signBit hpack, Response.opposite, isNaN_negate]
    exact isNaN_roundUnit_zero hpack _

end roundUnit

theorem Packable.pack_lt_infRep {sigN : Word} {expN : ℤ} {k : ℕ} {t : ℚ} (h : Packable sigN expN k t) :
    (pack sigN expN 0#128).toNat < 32767 * 2 ^ 112 := by
  have hlt := h.sig_lt
  have hexp := h.exp_le
  rw [h.pack_toNat]
  omega

/-- Without overflow the packed magnitude is finite (R72, R76). -/
theorem renormedSum_pack_lt {xs ys : Word} (hx : nonzeroFinite xs) (hy : nonzeroFinite ys)
    (hzero : (alignedSum xs ys).zero = false) (hovf : (renormedSum xs ys).ovf = false) :
    (pack (renormedSum xs ys).sigN (renormedSum xs ys).expN 0#128).toNat < 32767 * 2 ^ 112 := by
  obtain ⟨hmajor, hminor⟩ := operandParts_major_minor hx hy
  obtain ⟨k, hk⟩ := packable_of_normalForm (normalForm_alignedSum hmajor hminor hzero) hovf
  exact hk.pack_lt_infRep

/-! ### The general path -/

section general

variable (rm : RoundingMode) {xs ys : Word} (hx : nonzeroFinite xs) (hy : nonzeroFinite ys)
include hx hy

/-- The two operands reach the round unit with the other sign and otherwise as before (R101). -/
theorem faddGeneral_negate (hne : ¬(absBits xs = absBits ys ∧ signField xs ≠ signField ys)) :
    faddGeneral rm (negate xs) (negate ys) = (faddGeneral (mirrored rm) xs ys).opposite := by
  have hzero : (alignedSum xs ys).zero = false :=
    Bool.eq_false_of_not_eq_true fun h => hne (opposite_of_alignedSum_zero hx hy h)
  have hzero' : (alignedSum (negate xs) (negate ys)).zero = false := by rwa [alignedSum_negate]
  rw [faddGeneral_of_nonzero _ hzero, faddGeneral_of_nonzero _ hzero', signR_eq, signR_eq, renormedSum_negate,
    majorOf_negate, signField_negate]
  exact roundUnit_opposite (renormedSum_pack_lt hx hy hzero) rm _

theorem isNaN_faddGeneral : isNaN (faddGeneral rm xs ys).result = false := by
  cases hzero : (alignedSum xs ys).zero with
  | true =>
    rw [faddGeneral_of_zero rm hzero]
    decide
  | false =>
    rw [faddGeneral_of_nonzero rm hzero, signR_eq]
    exact isNaN_roundUnit (renormedSum_pack_lt hx hy hzero) rm _

end general

/-! ### The special path -/

section negate

variable (rm : RoundingMode) {x y : Word} (hne : ¬(absBits x = absBits y ∧ signField x ≠ signField y))
include hne

theorem fadd_negate_of_isInfinite (hx : isInfinite x = true) (hy : isNaN y = false) :
    fadd rm (negate x) (negate y) = (fadd (mirrored rm) x y).opposite := by
  have hsame : ¬x ^^^ y = signBit := fun h => hne ((xor_eq_signBit_iff x y).mp h)
  have hsame' : ¬negate x ^^^ negate y = signBit := fun h => hne (by simpa using (xor_eq_signBit_iff _ _).mp h)
  rw [fadd_of_isInfinite_left _ hx hy, if_neg hsame,
    fadd_of_isInfinite_left _ (isInfinite_negate hx) ((isNaN_negate y).trans hy), if_neg hsame']
  rfl

theorem fadd_negate_of_isZero (hx : isZero x = true) (hy : isZero y = true) :
    fadd rm (negate x) (negate y) = (fadd (mirrored rm) x y).opposite := by
  have habs : absBits x = absBits y := by rw [(isZero_iff_absBits x).mp hx, (isZero_iff_absBits y).mp hy]
  obtain rfl : x = y := eq_of_absBits_of_signField habs (by_contra fun hsign => hne ⟨habs, hsign⟩)
  rw [fadd_of_isZero_both _ hx hx, fadd_of_isZero_both _ (isZero_negate hx) (isZero_negate hx), BitVec.and_self,
    BitVec.and_self]
  rfl

theorem fadd_negate_of_isFinite (hx : isFinite x = true) (hy : isFinite y = true) :
    fadd rm (negate x) (negate y) = (fadd (mirrored rm) x y).opposite := by
  obtain hx | hx := (isFinite_iff x).mp hx <;> obtain hy | hy := (isFinite_iff y).mp hy
  · exact fadd_negate_of_isZero rm hne hx hy
  · rw [fadd_of_isZero_left_of_nonzeroFinite _ hx hy,
      fadd_of_isZero_left_of_nonzeroFinite _ (isZero_negate hx) (nonzeroFinite_negate hy)]
    rfl
  · rw [fadd_of_isZero_right _ hx hy, fadd_of_isZero_right _ (nonzeroFinite_negate hx) (isZero_negate hy)]
    rfl
  · rw [fadd_of_nonzeroFinite _ hx hy, fadd_of_nonzeroFinite _ (nonzeroFinite_negate hx) (nonzeroFinite_negate hy)]
    exact faddGeneral_negate rm hx hy hne

theorem fadd_negate (hx : isNaN x = false) (hy : isNaN y = false) :
    fadd rm (negate x) (negate y) = (fadd (mirrored rm) x y).opposite := by
  obtain hxinf | hxfin := isInfinite_or_isFinite hx
  · exact fadd_negate_of_isInfinite rm hne hxinf hy
  · obtain hyinf | hyfin := isInfinite_or_isFinite hy
    · rw [fadd_of_isInfinite_right _ hxfin hyinf,
        fadd_of_isInfinite_right _ ((isFinite_negate x).trans hxfin) (isInfinite_negate hyinf)]
      rfl
    · exact fadd_negate_of_isFinite rm hne hxfin hyfin

end negate

/-- Settles O37: on the special path the operand returned is the negated one; on the general path the datapath keeps the
operands' signs apart from their magnitudes up to the increment, which the mirrored mode makes the same. -/
theorem signSymmetry : Obligations.SignSymmetry :=
  fun rm _ _ ha hb hne => fadd_negate rm hne ha hb

end Sys2Proof.Machine

/-! ## No signaling result (R56) -/

namespace Sys2Proof.Machine

theorem isSignalingNaN_of_not_isNaN {x : Word} (h : isNaN x = false) : isSignalingNaN x = false :=
  (Bool.or_eq_false_iff.mp h).2

theorem isSignalingNaN_quieted (x : Word) : isSignalingNaN (x ||| quietBit) = false := by
  have hquiet : (x ||| quietBit).getLsbD 111 = true := by simp [quietBit]
  rw [isSignalingNaN, getLsbD_sigField_quiet, hquiet, Bool.not_true, Bool.and_false]

section result

variable (rm : RoundingMode) {xs ys : Word}

theorem isNaN_fadd_of_isFinite (hx : isFinite xs = true) (hy : isFinite ys = true) :
    isNaN (fadd rm xs ys).result = false := by
  obtain hxzero | hx' := (isFinite_iff xs).mp hx
  · rw [fadd_of_isZero_left rm hxzero hy]
    dsimp only
    split_ifs with hyzero
    · rw [isNaN_eq_false_iff, absBits_and_of_zero hyzero]
      decide
    · exact isNaN_of_isFinite hy
  · obtain hyzero | hy' := (isFinite_iff ys).mp hy
    · rw [fadd_of_isZero_right rm hx' hyzero]
      exact isNaN_of_isFinite hx
    · rw [fadd_of_nonzeroFinite rm hx' hy']
      exact isNaN_faddGeneral rm hx' hy'

theorem isSignalingNaN_fadd_of_not_isNaN (hx : isNaN xs = false) (hy : isNaN ys = false) :
    isSignalingNaN (fadd rm xs ys).result = false := by
  obtain hxinf | hxfin := isInfinite_or_isFinite hx
  · rw [fadd_of_isInfinite_left rm hxinf hy]
    dsimp only
    split_ifs
    · decide
    · exact isSignalingNaN_of_not_isNaN hx
  · apply isSignalingNaN_of_not_isNaN
    obtain hyinf | hyfin := isInfinite_or_isFinite hy
    · rwa [fadd_of_isInfinite_right rm hxfin hyinf]
    · exact isNaN_fadd_of_isFinite rm hxfin hyfin

theorem isSignalingNaN_fadd : isSignalingNaN (fadd rm xs ys).result = false := by
  cases hx : isNaN xs with
  | true =>
    rw [fadd_of_isNaN_left rm hx]
    exact isSignalingNaN_quieted xs
  | false =>
    cases hy : isNaN ys with
    | true =>
      rw [fadd_of_isNaN_right rm hx hy]
      exact isSignalingNaN_quieted ys
    | false => exact isSignalingNaN_fadd_of_not_isNaN rm hx hy

end result

/-- Settles O18: a NaN operand is returned quieted, opposite infinities give a quiet NaN, and no other pair of operands
gives a NaN. -/
theorem noSignalingResult : Obligations.NoSignalingResult :=
  fun i s => ⟨_, exec_eq_present i s, isSignalingNaN_fadd i.rm⟩

end Sys2Proof.Machine

/-! ## The ranges of the align shifter (R62 to R64) -/

namespace Sys2Proof.Machine

/-- A significand that is not 0 leaves at least a sticky bit, whatever the shift (R11). -/
theorem srj_pos {v : Word} (h : 0 < v.toNat) (n : ℕ) : 0 < (srj v n).toNat := by
  obtain ⟨hexact, -⟩ | ⟨-, hodd⟩ := srj_toNat_cases v n
  · exact Nat.pos_of_mul_pos_right (srj_of_exact hexact ▸ h)
  · omega

theorem operandParts_of_special_eq_none {xs ys : Word} (h : special xs ys = none) :
    OperandParts (majorOf xs ys) ∧ OperandParts (minorOf xs ys) :=
  have ⟨hx, hy⟩ := (special_eq_none_iff xs ys).mp h
  operandParts_major_minor hx hy

section shifter

variable {xs ys : Word}

theorem alignAmount_nonneg (hx : OperandParts (majorOf xs ys)) (hy : OperandParts (minorOf xs ys)) :
    0 ≤ alignAmount xs ys :=
  sub_nonneg.mpr (hx.le_of_absBits_le hy (majorOf_minorOf xs ys).1).1

theorem alignAmount_le (hx : OperandParts (majorOf xs ys)) (hy : OperandParts (minorOf xs ys)) :
    alignAmount xs ys ≤ 32877 :=
  sub_le_sub hx.exp_le hy.exp_ge

theorem sigB_pos (hy : OperandParts (minorOf xs ys)) : 0 < (alignShift xs ys).sigB.toNat := by
  have hge := hy.sig_ge
  refine srj_pos ?_ _
  rw [hy.extendGuard]
  omega

/-- An alignment by 116 or more shifts the whole significand out (R63). -/
theorem sigB_lt_two (hy : OperandParts (minorOf xs ys)) (h : 116 ≤ (alignAmount xs ys).toNat) :
    (alignShift xs ys).sigB.toNat < 2 := by
  have hlt := hy.sig_lt
  have hpow : 2 ^ 116 ≤ 2 ^ (alignAmount xs ys).toNat := Nat.pow_le_pow_right two_pos h
  rw [alignShift_sigB]
  refine (srj_lt_iff _ _ 1).mpr ?_
  rw [hy.extendGuard]
  omega

end shifter

/-- Settles O19: the major operand's exponent is not the smaller one, and each exponent is in its range of R59. -/
theorem alignmentAmountRange : Obligations.AlignmentAmountRange := by
  intro xs ys hgeneral
  obtain ⟨hx, hy⟩ := operandParts_of_special_eq_none hgeneral
  exact ⟨alignAmount_nonneg hx hy, alignAmount_le hx hy⟩

/-- Settles O20: the major significand carries its leading bit at bit 115, and the minor one is shifted down from there
without becoming 0. -/
theorem alignShifterRanges : Obligations.AlignShifterRanges := by
  intro xs ys hgeneral
  obtain ⟨hx, hy⟩ := operandParts_of_special_eq_none hgeneral
  obtain ⟨hge, hlt, -⟩ := sigA_bounds hx
  refine ⟨hge, hlt, sigB_le_sigA hx hy, fun h => ?_, hx.exp_ge, hx.exp_le, sigB_pos hy⟩
  exact sigB_lt hy (n := 1) (by decide) (by omega)

/-- Settles O21: the aligned significand is below 2 and is not 0. -/
theorem farOperandLeavesSticky : Obligations.FarOperandLeavesSticky := by
  intro xs ys hgeneral hfar
  obtain ⟨-, hy⟩ := operandParts_of_special_eq_none hgeneral
  have hpos := sigB_pos hy
  have hlt := sigB_lt_two hy (by omega)
  exact BitVec.eq_of_toNat_eq (Nat.le_antisymm (Nat.le_of_lt_succ hlt) hpos)

end Sys2Proof.Machine

/-! ## The significand adder's outputs (R65 to R68) -/

namespace Sys2Proof.Machine

/-- The zero output is the test of the difference, and an addition never sets it (R66). -/
theorem sigAdd_zero_iff (a b : Word) (isSub : Bool) :
    (sigAdd a b isSub).zero = true ↔ isSub = true ∧ (sigAdd a b isSub).sum = 0#128 := by
  cases isSub <;> simp [sigAdd]

/-- Settles O22: the minor significand is not above the major one, so the difference does not wrap, and both are below
`2^116`, so the sum does not. -/
theorem significandSumExact : Obligations.SignificandSumExact := by
  intro xs ys hgeneral
  obtain ⟨hx, hy⟩ := operandParts_of_special_eq_none hgeneral
  obtain ⟨hge, hlt, -⟩ := sigA_bounds hx
  have hle := sigB_le_sigA hx hy
  have hpos := sigB_pos hy
  dsimp only
  constructor
  · intro hsub
    rw [hsub, sigAdd_of_sub hle]
    omega
  · intro hadd
    rw [hadd, sigAdd_of_add (by omega)]
    exact ⟨rfl, rfl, by omega, by omega⟩

/-- Settles O23: where the significands cancel the operands are opposite, and the other way round; the general path then
answers `+0` without looking at the rounding mode. -/
theorem exactCancellation : Obligations.ExactCancellation := by
  intro i s hgeneral
  obtain ⟨hx, hy⟩ := (special_eq_none_iff (xsOf i) (ysOf i)).mp hgeneral
  refine ⟨sigAdd_zero_iff _ _ _, ⟨opposite_of_alignedSum_zero hx hy, ?_⟩, fun habs hsign => exec_of_fadd ?_ s⟩
  · exact fun ⟨habs, hsign⟩ => alignedSum_zero_of_opposite habs hsign
  · rw [fadd_of_nonzeroFinite i.rm hx hy, faddGeneral_of_zero i.rm (alignedSum_zero_of_opposite habs hsign)]

end Sys2Proof.Machine

/-! ## Exact magnitudes in units of the least denormal (R38) -/

namespace Sys2Proof.Machine

/-- The values of patterns are multiples of the least denormal's, `2^-16494` (R38). -/
theorem exists_magnitudeValue_eq (p : ℕ) : ∃ m : ℤ, magnitudeValue p = m * 2 ^ (-16494 : ℤ) := by
  obtain ⟨k, s, hs, hnormal, rfl⟩ := exists_magnitude_parts p
  refine ⟨s * 2 ^ k, ?_⟩
  rw [magnitudeValue_of_parts hs.le hnormal, sub_eq_add_neg, zpow_add₀ two_ne_zero, zpow_natCast]
  generalize (2 : ℚ) ^ (-16494 : ℤ) = unit
  push_cast
  ring

theorem exists_exactMagnitude_eq (xs ys : Word) : ∃ m : ℤ, exactMagnitude xs ys = m * 2 ^ (-16494 : ℤ) := by
  obtain ⟨a, ha⟩ := exists_magnitudeValue_eq (absBits (majorOf xs ys)).toNat
  obtain ⟨b, hb⟩ := exists_magnitudeValue_eq (absBits (minorOf xs ys)).toNat
  rw [exactMagnitude, ha, hb]
  generalize (2 : ℚ) ^ (-16494 : ℤ) = unit
  split_ifs
  · exact ⟨a - b, by push_cast; ring⟩
  · exact ⟨a + b, by push_cast; ring⟩

/-- A number that stands for a multiple of its granularity is that multiple. -/
theorem sameSide.eq_of_multiple {g n k : ℤ} (h : sameSide g n ((g * k : ℤ) : ℚ)) : n = g * k := by
  obtain ⟨hlt, hgt⟩ := h k
  exact le_antisymm (not_lt.mp fun hn => lt_irrefl _ (hgt.mp hn)) (not_lt.mp fun hn => lt_irrefl _ (hlt.mp hn))

end Sys2Proof.Machine

/-! ## The normal form of the exact sum (R71, R74) -/

namespace Sys2Proof.Machine

section normalForm

variable {n : Word × ℤ} {t : ℚ} (h : NormalForm n t)
include h

/-- What the normal form stands for has its leading bit where the significand has it (R71). -/
theorem NormalForm.scaled_bounds : 2 ^ 115 ≤ t * 2 ^ (16498 - n.2) ∧ t * 2 ^ (16498 - n.2) < 2 ^ 116 := by
  obtain ⟨hge, hlt, htracks⟩ := h
  have hlow : ((4 * 2 ^ 113 : ℤ) : ℚ) = 2 ^ 115 := by norm_num
  have hhigh : ((4 * 2 ^ 114 : ℤ) : ℚ) = 2 ^ 116 := by norm_num
  rw [← hlow, ← hhigh]
  exact ⟨not_lt.mp (mt (htracks (2 ^ 113)).1.mpr (by omega)), (htracks (2 ^ 114)).1.mp (by omega)⟩

theorem NormalForm.pos : 0 < t :=
  pos_of_mul_pos_left ((pow_pos two_pos 115).trans_le h.scaled_bounds.1) (zpow_pos two_pos _).le

variable {m : ℤ} (hm : t = m * 2 ^ (-16494 : ℤ))
include hm

/-- No exact sum but 0 is below the least denormal, whose normal form has the exponent -111 (R71). -/
theorem NormalForm.exp_ge : -111 ≤ n.2 := by
  have hpos := h.pos
  obtain ⟨-, hlt⟩ := h.scaled_bounds
  by_contra hlow
  have hunit : (1 : ℚ) ≤ m := by
    rw [hm, mul_pos_iff_of_pos_right (zpow_pos two_pos _)] at hpos
    exact_mod_cast hpos
  have hscale : (-16494 : ℤ) + (16498 - n.2) = 4 - n.2 := by omega
  have hpow : (2 : ℚ) ^ (116 : ℤ) ≤ 2 ^ (4 - n.2) := zpow_le_zpow_right₀ one_le_two (by omega)
  rw [hm, mul_assoc, ← zpow_add₀ two_ne_zero, hscale] at hlt
  refine absurd hlt (not_lt.mpr ?_)
  calc (2 : ℚ) ^ 116 ≤ 2 ^ (4 - n.2) := hpow
    _ ≤ m * 2 ^ (4 - n.2) := le_mul_of_one_le_left (zpow_pos two_pos _).le hunit

/-- In the denormal range one unit of the least denormal is 8 units of the shifted significand, whose three round bits
are therefore 0 (R74). -/
theorem NormalForm.sig_eq_of_denormal (he : n.2 ≤ 0) : (n.1.toNat : ℤ) = 8 * m * 2 ^ (1 - n.2).toNat := by
  have hexp : (-16494 : ℤ) + (16498 - n.2) = 3 + ((1 - n.2).toNat : ℤ) := by omega
  have htracks := h.tracks
  have hq : t * 2 ^ (16498 - n.2) = ((4 * (2 * m * 2 ^ (1 - n.2).toNat) : ℤ) : ℚ) := by
    rw [hm, mul_assoc, ← zpow_add₀ two_ne_zero, hexp, zpow_add₀ two_ne_zero, zpow_natCast]
    push_cast
    ring
  rw [Machine.tracks, hq] at htracks
  rw [htracks.eq_of_multiple]
  ring

/-- The underflow shift is exact (R74). -/
theorem NormalForm.shift_exact (he : n.2 ≤ 0) : n.1.toNat % 2 ^ (1 - n.2).toNat = 0 := by
  rw [← Int.natCast_inj, Int.natCast_mod, h.sig_eq_of_denormal hm he]
  push_cast
  exact Int.mul_emod_left _ _

theorem NormalForm.roundBits_of_denormal (he : n.2 ≤ 0) : roundBits (srj n.1 (1 - n.2).toNat) = 0 := by
  have hshift := srj_of_exact (h.shift_exact hm he)
  have hsig := h.sig_eq_of_denormal hm he
  have hscaled : ((srj n.1 (1 - n.2).toNat).toNat : ℤ) = 8 * m := by
    rw [← hshift] at hsig
    push_cast at hsig
    exact mul_right_cancel₀ (pow_ne_zero _ two_ne_zero) hsig
  rw [roundBits_eq]
  omega

end normalForm

/-- The exponent rises by the carry of a sum alone (R69, R70). -/
theorem normalizeSum_exp_le (sum : Word) (expA : ℤ) (isSub : Bool) :
    (normalizeSum sum expA isSub).2 ≤ if isSub then expA else expA + 1 := by
  cases isSub with
  | true =>
    rw [normalizeSum_of_sub, if_pos rfl]
    split_ifs <;> dsimp only <;> omega
  | false =>
    rw [normalizeSum, if_neg Bool.false_ne_true, if_neg Bool.false_ne_true]
    split_ifs <;> dsimp only <;> omega

theorem normalForm_of_special_eq_none {xs ys : Word} (hgeneral : special xs ys = none)
    (hne : (alignedSum xs ys).zero = false) :
    NormalForm (normalizeSum (alignedSum xs ys).sum (alignShift xs ys).expA (alignShift xs ys).isSub)
      (exactMagnitude xs ys) :=
  have ⟨hx, hy⟩ := operandParts_of_special_eq_none hgeneral
  normalForm_alignedSum hx hy hne

theorem fadd_of_special_eq_none (rm : RoundingMode) {xs ys : Word} (hgeneral : special xs ys = none)
    (hne : (alignedSum xs ys).zero = false) :
    fadd rm xs ys =
      roundUnit (renormedSum xs ys).sigN (renormedSum xs ys).expN (alignShift xs ys).signR rm (renormedSum xs ys).ovf := by
  obtain ⟨hx, hy⟩ := (special_eq_none_iff xs ys).mp hgeneral
  rw [fadd_of_nonzeroFinite rm hx hy, faddGeneral_of_nonzero rm hne]

/-- Settles O24: the exact sum is at least the least denormal, which bounds the exponent from below; from above it is
bounded by the major operand's exponent and the carry. -/
theorem sumNormalForm : Obligations.SumNormalForm := by
  intro xs ys hgeneral al sa hne n
  obtain ⟨hx, -⟩ := operandParts_of_special_eq_none hgeneral
  have hform : NormalForm n (exactMagnitude xs ys) := normalForm_of_special_eq_none hgeneral hne
  obtain ⟨m, hm⟩ := exists_exactMagnitude_eq xs ys
  refine ⟨hform.ge, hform.lt, hform.exp_ge hm, (normalizeSum_exp_le sa.sum al.expA al.isSub).trans ?_⟩
  have hexp : al.expA ≤ 32766 := hx.exp_le
  split_ifs <;> omega

/-- Settles O25: the exact sum is a multiple of the least denormal, so in the denormal range its normal form is exact and
a multiple of 8 after the shift. -/
theorem denormalResultExact : Obligations.DenormalResultExact := by
  intro rm xs ys hgeneral al sa n hne he
  have hform : NormalForm n (exactMagnitude xs ys) := normalForm_of_special_eq_none hgeneral hne
  obtain ⟨m, hm⟩ := exists_exactMagnitude_eq xs ys
  have hrenorm : renormedSum xs ys = { sigN := srj n.1 (1 - n.2).toNat, expN := 0, ovf := false } :=
    renormalize_of_denormal he
  have hround : roundBits (renormedSum xs ys).sigN = 0 := by
    rw [hrenorm]
    exact hform.roundBits_of_denormal hm he
  refine ⟨hform.shift_exact hm he, hround, ?_⟩
  rw [fadd_of_special_eq_none rm hgeneral hne, hrenorm]
  rw [hrenorm] at hround
  exact bne_eq_false_iff_eq.mpr hround

theorem renormalize_ovf_iff (sum : Word) (expA : ℤ) (isSub : Bool) :
    (renormalize sum expA isSub).ovf = true ↔ 32767 ≤ (normalizeSum sum expA isSub).2 := by
  refine ⟨fun hovf => ?_, fun hover => by rw [renormalize_of_overflow hover]⟩
  by_contra hlow
  by_cases hunder : (normalizeSum sum expA isSub).2 ≤ 0
  · rw [renormalize_of_denormal hunder] at hovf
    cases hovf
  · rw [renormalize_of_normal (by omega) (by omega)] at hovf
    cases hovf

/-- Settles O26: the major operand's exponent is at most 32766, so only a carry brings it to 32767. -/
theorem overflowGivesInfinity : Obligations.OverflowGivesInfinity := by
  intro i s hgeneral al sa hne
  obtain ⟨hx, -⟩ := operandParts_of_special_eq_none hgeneral
  have hexp : al.expA ≤ 32766 := hx.exp_le
  refine ⟨renormalize_ovf_iff _ _ _, fun hovf => ?_⟩
  have hover := (renormalize_ovf_iff _ _ _).mp hovf
  have hle := normalizeSum_exp_le sa.sum al.expA al.isSub
  split_ifs at hle with hsub
  · omega
  · refine ⟨Bool.eq_false_of_not_eq_true hsub, by omega, by omega, exec_of_fadd ?_ s⟩
    have hovf' : (renormedSum (xsOf i) (ysOf i)).ovf = true := hovf
    rw [fadd_of_special_eq_none i.rm hgeneral hne, hovf', roundUnit_of_overflow]

end Sys2Proof.Machine

/-! ## Where rounding reaches the infinity (R72, R81, R83) -/

namespace Sys2Proof.Machine

/-! ### The largest finite value and the limit -/

/-- The magnitude of the infinity, taken as a finite one, is the power of two after the finite values (R38). -/
theorem magnitudeValue_infinity : magnitudeValue (32767 * 2 ^ 112) = overflowLimit := by
  have hparts : 32767 * 2 ^ 112 = 32765 * 2 ^ 112 + 2 ^ 113 := by omega
  have hexp : ((32765 : ℕ) : ℤ) - 16494 = (16271 : ℕ) := rfl
  rw [hparts, magnitudeValue_of_parts le_rfl (.inr (by omega)), hexp, zpow_natCast, overflowLimit, Nat.cast_pow, Nat.cast_ofNat,
    ← pow_add]

theorem magnitudeValue_largest : magnitudeValue (32767 * 2 ^ 112 - 1) = largestFinite := by
  have hparts : 32767 * 2 ^ 112 - 1 = 32765 * 2 ^ 112 + (2 ^ 113 - 1) := by omega
  have hexp : ((32765 : ℕ) : ℤ) - 16494 = (16271 : ℕ) := rfl
  have hlimit : (2 : ℚ) ^ 16384 = 2 ^ 113 * 2 ^ 16271 := by rw [← pow_add]
  rw [hparts, magnitudeValue_of_parts (by omega) (.inr (by omega)), hexp, zpow_natCast, largestFinite, hlimit]
  generalize (2 : ℚ) ^ 16271 = unit
  push_cast
  ring

theorem largestFinite_lt_overflowLimit : largestFinite < overflowLimit := by
  rw [← magnitudeValue_largest, ← magnitudeValue_infinity]
  exact magnitudeValue_strictMono (by omega)

theorem largestFinite_nonneg : 0 ≤ largestFinite := magnitudeValue_largest ▸ magnitudeValue_nonneg _

theorem abs_valueOf (x : Word) : |valueOf x| = magnitudeValue (absBits x).toNat := by
  have hnonneg := magnitudeValue_nonneg (absBits x).toNat
  rw [valueOf_eq_magnitude, abs_mul, abs_of_nonneg hnonneg]
  cases signField x <;> simp

theorem abs_valueOf_le_largestFinite {x : Word} (h : isFinite x = true) : |valueOf x| ≤ largestFinite := by
  have hlt := (isFinite_iff_absBits x).mp h
  rw [abs_valueOf, ← magnitudeValue_largest]
  exact magnitudeValue_strictMono.monotone (by omega)

/-! ### Exact values that overflow in a mode -/

section overflowsIn

/-- The limit of rounding to nearest is halfway between the largest finite value and the power of two after it. -/
theorem overflowsIn_nearest_iff (v : ℚ) : overflowsIn .nearest v ↔ largestFinite + overflowLimit ≤ 2 * |v| := by
  have hunit : (2 : ℚ) ^ 16271 = 2 ^ 16270 * 2 := pow_succ 2 16270
  rw [overflowsIn, largestFinite, overflowLimit, hunit]
  generalize (2 : ℚ) ^ 16384 = limit
  generalize (2 : ℚ) ^ 16270 = half
  constructor <;> intro h <;> linarith

variable {v : ℚ} (rm : RoundingMode)

theorem not_overflowsIn_of_abs_le (h : |v| ≤ largestFinite) : ¬overflowsIn rm v := by
  have hlimit := largestFinite_lt_overflowLimit
  obtain ⟨hlow, hhigh⟩ := abs_le.mp h
  cases rm with
  | nearest =>
    rw [overflowsIn_nearest_iff]
    linarith
  | downward => exact not_or.mpr ⟨not_le.mpr (by linarith), not_lt.mpr hlow⟩
  | upward => exact not_or.mpr ⟨not_lt.mpr hhigh, not_le.mpr (by linarith)⟩
  | towardZero => exact not_le.mpr (by linarith)

theorem overflowsIn_of_overflowLimit_le (h : overflowLimit ≤ v) : overflowsIn rm v := by
  have hlimit := largestFinite_lt_overflowLimit
  have habs := le_abs_self v
  cases rm with
  | nearest =>
    rw [overflowsIn_nearest_iff]
    linarith
  | downward => exact .inl h
  | upward => exact .inl (hlimit.trans_le h)
  | towardZero => exact h.trans habs

/-- The limits of a negative value are those of its magnitude in the mirrored mode (R101). -/
theorem overflowsIn_neg : overflowsIn rm (-v) ↔ overflowsIn (mirrored rm) v := by
  cases rm with
  | nearest => rw [mirrored, overflowsIn, overflowsIn, abs_neg]
  | downward => rw [mirrored, overflowsIn, overflowsIn, neg_lt_neg_iff, le_neg, or_comm]
  | upward => rw [mirrored, overflowsIn, overflowsIn, lt_neg, neg_le_neg_iff, or_comm]
  | towardZero => rw [mirrored, overflowsIn, overflowsIn, abs_neg]

/-- The increment of the largest finite magnitude: the mode makes it where the exact value overflows (R77 to R81). -/
theorem Bracketed.overflowsIn_iff {r : Word} {rgs : ℕ} (h : Bracketed r.toNat rgs v)
    (hr : r.toNat = 32767 * 2 ^ 112 - 1) : overflowsIn rm v ↔ roundIncrement rm rgs 0#128 r = r + 1#128 := by
  have hlower := h.lower
  have hupper := h.upper
  have hexact := h.exact_iff
  have hbelow := h.below_iff
  have hsucc : r + 1#128 ≠ r := by simp
  have hnext : r.toNat + 1 = 32767 * 2 ^ 112 := by omega
  rw [hnext, magnitudeValue_infinity] at hupper hbelow
  rw [hr, magnitudeValue_largest] at hlower hexact hbelow
  have hlargest := largestFinite_nonneg
  have hpos : 0 ≤ v := hlargest.trans hlower
  cases rm with
  | nearest =>
    have hodd : r.getLsbD 0 = true := by
      rw [getLsbD_zero_iff]
      omega
    rw [overflowsIn_nearest_iff, abs_of_nonneg hpos, ← not_lt, ← hbelow, roundIncrement_nearest, hsucc.ite_eq_left_iff,
      and_iff_left hodd]
    omega
  | downward =>
    have hkept : roundIncrement .downward rgs 0#128 r = r := rfl
    rw [hkept]
    exact iff_of_false (not_or.mpr ⟨not_le.mpr hupper, by linarith⟩) hsucc.symm
  | upward =>
    have hlow : ¬v ≤ -overflowLimit := by linarith
    rw [overflowsIn, or_iff_left hlow, hlower.lt_iff_ne, ne_comm, Ne, ← hexact]
    simp [roundIncrement]
  | towardZero =>
    rw [overflowsIn, abs_of_nonneg hpos]
    exact iff_of_false (not_le.mpr hupper) hsucc.symm

end overflowsIn

/-! ### The response and the exact value -/

/-- A response is an infinity exactly where the exact value overflows in the mode, and it then has `nx = 1` and the exact
value's sign (R72, R81, R83). -/
structure AnswersOverflow (rm : RoundingMode) (v : ℚ) (r : Response) : Prop where
  infinite_iff : isInfinite r.result = true ↔ overflowsIn rm v
  inexact : isInfinite r.result = true → r.nx = true
  sign_iff : isInfinite r.result = true → (signField r.result = true ↔ v < 0)

theorem not_isInfinite_of_isFinite {x : Word} (h : isFinite x = true) : ¬isInfinite x = true :=
  fun hinf => (absBits_of_isFinite h).2 ((isInfinite_iff_absBits x).mp hinf)

theorem isInfinite_negate_iff (x : Word) : isInfinite (negate x) = true ↔ isInfinite x = true := by
  rw [isInfinite_iff_absBits, isInfinite_iff_absBits, absBits_negate]

theorem answersOverflow_of_exact (rm : RoundingMode) {v : ℚ} {r : Response} (hr : isFinite r.result = true)
    (hv : valueOf r.result = v) : AnswersOverflow rm v r := by
  have hinf := not_isInfinite_of_isFinite hr
  have hover := not_overflowsIn_of_abs_le rm (hv ▸ abs_valueOf_le_largestFinite hr)
  exact ⟨iff_of_false hinf hover, fun h => absurd h hinf, fun h => absurd h hinf⟩

theorem AnswersOverflow.opposite {rm : RoundingMode} {v : ℚ} {r : Response} (h : AnswersOverflow (mirrored rm) v r) :
    AnswersOverflow rm (-v) r.opposite := by
  obtain ⟨hinf, hnx, hsign⟩ := h
  refine ⟨?_, fun hr => hnx ((isInfinite_negate_iff _).mp hr), fun hr => ?_⟩
  · rw [overflowsIn_neg, ← hinf]
    exact isInfinite_negate_iff _
  · have hr' := (isInfinite_negate_iff _).mp hr
    have hne : v ≠ 0 := by
      rintro rfl
      exact not_overflowsIn_of_abs_le _ (abs_zero.trans_le largestFinite_nonneg) (hinf.mp hr')
    rw [Response.opposite, signField_negate, Bool.not_eq_true', ← Bool.not_eq_true, hsign hr', not_lt, neg_lt_zero]
    exact hne.symm.le_iff_lt

/-- R72, R83: overflow of the exponent. -/
theorem answersOverflow_of_ovf {rm : RoundingMode} {v : ℚ} (sigN : Word) (expN : ℤ) (hv : overflowLimit ≤ v) :
    AnswersOverflow rm v (roundUnit sigN expN 0#128 rm true) := by
  have hpos : 0 ≤ v := (largestFinite_nonneg.trans_lt largestFinite_lt_overflowLimit).le.trans hv
  rw [roundUnit_of_overflow]
  exact ⟨iff_of_true (by decide) (overflowsIn_of_overflowLimit_le rm hv), fun _ => rfl,
    fun _ => iff_of_false (by decide) (not_lt.mpr hpos)⟩

theorem isFinite_of_toNat_lt {x : Word} (h : x.toNat < 32767 * 2 ^ 112) : isFinite x = true := by
  rw [isFinite_iff_absBits, absBits_toNat]
  omega

section increment

variable {r : Word} {rgs : ℕ} {v : ℚ} (h : Bracketed r.toNat rgs v) (hr : r.toNat < 32767 * 2 ^ 112)
  (rm : RoundingMode)
include h hr

/-- A magnitude below the largest finite one stays finite, and so does what it stands for. -/
theorem Bracketed.finite_of_not_last (hlast : r.toNat ≠ 32767 * 2 ^ 112 - 1) :
    isFinite (roundIncrement rm rgs 0#128 r) = true ∧ ¬overflowsIn rm v := by
  have hnext : (r + 1#128).toNat = r.toNat + 1 := add_one_toNat (by omega)
  have hupper : v ≤ largestFinite := by
    rw [← magnitudeValue_largest]
    exact h.upper.le.trans (magnitudeValue_strictMono.monotone (by omega))
  constructor
  · obtain hkept | hinc := roundIncrement_cases rm rgs 0#128 r
    · rw [hkept]
      exact isFinite_of_toNat_lt hr
    · rw [hinc]
      exact isFinite_of_toNat_lt (by omega)
  · apply not_overflowsIn_of_abs_le
    rwa [abs_of_nonneg ((magnitudeValue_nonneg _).trans h.lower)]

/-- A finite magnitude becomes the infinity by the increment of the largest one alone (R81). -/
theorem Bracketed.isInfinite_roundIncrement_iff :
    isInfinite (roundIncrement rm rgs 0#128 r) = true ↔ overflowsIn rm v := by
  by_cases hlast : r.toNat = 32767 * 2 ^ 112 - 1
  · rw [h.overflowsIn_iff rm hlast]
    have hnext : r + 1#128 = infRep := by
      apply BitVec.eq_of_toNat_eq
      rw [add_one_toNat (by omega), infRep_toNat]
      omega
    obtain hkept | hinc := roundIncrement_cases rm rgs 0#128 r
    · rw [hkept]
      exact iff_of_false (not_isInfinite_of_isFinite (isFinite_of_toNat_lt hr)) (by simp)
    · rw [hinc, hnext]
      exact iff_of_true (by decide) rfl
  · obtain ⟨hfinite, hv⟩ := h.finite_of_not_last hr rm hlast
    exact iff_of_false (not_isInfinite_of_isFinite hfinite) hv

/-- A positive magnitude keeps its sign bit at 0. -/
theorem Bracketed.sign_iff : signField (roundIncrement rm rgs 0#128 r) = true ↔ v < 0 := by
  have hv : ¬v < 0 := not_lt.mpr ((magnitudeValue_nonneg _).trans h.lower)
  refine iff_of_false ?_ hv
  rw [signField_eq, decide_eq_true_iff]
  obtain hkept | hinc := roundIncrement_cases rm rgs 0#128 r
  · rw [hkept]
    omega
  · rw [hinc, add_one_toNat (by omega)]
    omega

/-- An exact value that overflows lies above the magnitude, so a round bit is set (R82). -/
theorem Bracketed.rgs_ne_zero (hv : overflowsIn rm v) : rgs ≠ 0 := by
  intro hrgs
  refine not_overflowsIn_of_abs_le rm ?_ hv
  rw [h.exact_iff.mp hrgs, ← valueOf_of_lt (by omega)]
  exact abs_valueOf_le_largestFinite (isFinite_of_toNat_lt hr)

end increment

/-- The round unit without overflow of the exponent (R75 to R82). -/
theorem Packable.answersOverflow {sigN : Word} {expN : ℤ} {k : ℕ} {t : ℚ} (h : Packable sigN expN k t)
    (rm : RoundingMode) : AnswersOverflow rm t (roundUnit sigN expN 0#128 rm false) := by
  have hbracket : Bracketed (pack sigN expN 0#128).toNat (roundBits sigN) t := h.pack_toNat ▸ h.bracketed
  have hlt := h.pack_lt_infRep
  have hinf := hbracket.isInfinite_roundIncrement_iff hlt rm
  exact ⟨hinf, fun hr => bne_iff_ne.mpr (hbracket.rgs_ne_zero hlt rm (hinf.mp hr)),
    fun _ => hbracket.sign_iff hlt rm⟩

/-- An exponent that overflows belongs to an exact value of `2^16384` or more (R72). -/
theorem NormalForm.overflowLimit_le {n : Word × ℤ} {t : ℚ} (h : NormalForm n t) (he : 32767 ≤ n.2) :
    overflowLimit ≤ t := by
  have hscale : (2 : ℚ) ^ (16498 - n.2) ≤ 2 ^ (-16269 : ℤ) := zpow_le_zpow_right₀ one_le_two (by omega)
  have hlimit : overflowLimit * 2 ^ (-16269 : ℤ) = 2 ^ 115 := by
    rw [overflowLimit, ← zpow_natCast, ← zpow_add₀ two_ne_zero]
    rfl
  refine le_of_mul_le_mul_right ?_ (zpow_pos two_pos (-16269) : (0 : ℚ) < _)
  calc overflowLimit * 2 ^ (-16269 : ℤ) = 2 ^ 115 := hlimit
    _ ≤ t * 2 ^ (16498 - n.2) := h.scaled_bounds.1
    _ ≤ t * 2 ^ (-16269 : ℤ) := mul_le_mul_of_nonneg_left hscale h.pos.le

section general

variable (rm : RoundingMode) {xs ys : Word} (hx : nonzeroFinite xs) (hy : nonzeroFinite ys)
include hx hy

/-- The exact magnitude, rounded without its sign. -/
theorem answersOverflow_renormedSum (hne : (alignedSum xs ys).zero = false) :
    AnswersOverflow rm (exactMagnitude xs ys)
      (roundUnit (renormedSum xs ys).sigN (renormedSum xs ys).expN 0#128 rm (renormedSum xs ys).ovf) := by
  obtain ⟨hmajor, hminor⟩ := operandParts_major_minor hx hy
  have hform := normalForm_alignedSum hmajor hminor hne
  cases hovf : (renormedSum xs ys).ovf with
  | true => exact answersOverflow_of_ovf _ _ (hform.overflowLimit_le ((renormalize_ovf_iff _ _ _).mp hovf))
  | false =>
    obtain ⟨k, hk⟩ := packable_of_normalForm hform hovf
    exact hk.answersOverflow rm

theorem answersOverflow_faddGeneral : AnswersOverflow rm (valueOf xs + valueOf ys) (faddGeneral rm xs ys) := by
  rw [valueOf_add_valueOf]
  cases hzero : (alignedSum xs ys).zero with
  | true =>
    obtain ⟨hmajor, hminor⟩ := operandParts_major_minor hx hy
    rw [exactMagnitude_of_zero hmajor hminor hzero, mul_zero, faddGeneral_of_zero rm hzero]
    exact answersOverflow_of_exact rm (by decide) (valueOf_of_absBits_zero (by decide))
  | false =>
    rw [faddGeneral_of_nonzero rm hzero, signR_eq]
    cases signField (majorOf xs ys) with
    | false =>
      rw [if_neg Bool.false_ne_true, if_neg Bool.false_ne_true, one_mul]
      exact answersOverflow_renormedSum rm hx hy hzero
    | true =>
      rw [if_pos rfl, if_pos rfl, neg_one_mul, roundUnit_signBit (renormedSum_pack_lt hx hy hzero)]
      exact (answersOverflow_renormedSum _ hx hy hzero).opposite

end general

theorem isFinite_fadd_of_isZero (rm : RoundingMode) {xs ys : Word} (hx : isFinite xs = true) (hy : isFinite ys = true)
    (h : isZero xs = true ∨ isZero ys = true) : isFinite (fadd rm xs ys).result = true := by
  by_cases hxzero : isZero xs = true
  · rw [fadd_of_isZero_left rm hxzero hy]
    dsimp only
    split_ifs with hyzero
    · exact isFinite_of_isZero ((isZero_iff_absBits _).mpr (absBits_and_of_zero hyzero))
    · exact hy
  · rw [fadd_of_isZero_right rm (((isFinite_iff xs).mp hx).resolve_left hxzero) (h.resolve_left hxzero)]
    exact hx

theorem answersOverflow_fadd (rm : RoundingMode) {xs ys : Word} (hx : isFinite xs = true) (hy : isFinite ys = true) :
    AnswersOverflow rm (valueOf xs + valueOf ys) (fadd rm xs ys) := by
  by_cases hzero : isZero xs = true ∨ isZero ys = true
  · exact answersOverflow_of_exact rm (isFinite_fadd_of_isZero rm hx hy hzero) (valueOf_fadd_of_isZero rm hx hy hzero)
  · obtain ⟨hxne, hyne⟩ := not_or.mp hzero
    have hx' := ((isFinite_iff _).mp hx).resolve_left hxne
    have hy' := ((isFinite_iff _).mp hy).resolve_left hyne
    rw [fadd_of_nonzeroFinite rm hx' hy']
    exact answersOverflow_faddGeneral rm hx' hy'

/-- Settles O31: a sum with a zero is exact and finite. On the general path an exponent that overflows belongs to a sum
beyond the limit of every mode, and without it only the increment of the largest finite magnitude gives the infinity,
which each mode makes from its own limit on. -/
theorem overflowExactlyBeyondLimit : Obligations.OverflowExactlyBeyondLimit := by
  intro i s hx hy
  obtain ⟨hinf, hnx, hsign⟩ := answersOverflow_fadd i.rm hx hy
  rw [← exactOf_eq] at hinf hsign
  exact ⟨_, exec_eq_present i s, (isInfinite_or_isFinite (isNaN_fadd_of_isFinite i.rm hx hy)).symm, hinf,
    fun hr => ⟨hnx hr, hsign hr⟩⟩

end Sys2Proof.Machine

/-! ## Increments and inexact of the round unit (R77 to R80, R82) -/

namespace Sys2Proof.Machine

/-- Settles O27: the tests of the two directed modes as propositions; that of Nearest is `roundIncrement_nearest`. -/
theorem roundingIncrements : Obligations.RoundingIncrements := by
  intro sigN expN signR rgs r
  refine ⟨roundIncrement_nearest rgs signR r, ?_, ?_, rfl⟩
  · exact if_congr (by rw [Bool.and_eq_true, bne_iff_ne, bne_iff_ne]) rfl rfl
  · exact if_congr (by rw [Bool.and_eq_true, beq_iff_eq, bne_iff_ne]) rfl rfl

theorem roundUnit_nx (sigN : Word) (expN : ℤ) (signR : Word) (rm : RoundingMode) :
    (roundUnit sigN expN signR rm false).nx = (sigN.toNat % 8 != 0) :=
  congrArg inexactOf (roundBits_eq sigN)

/-- Settles O28: the round bits are the remainder by 8, and presenting a response ORs its `nx` into FPENV.NX. -/
theorem inexactIsRoundBits : Obligations.InexactIsRoundBits := by
  intro sigN expN signR rm
  refine ⟨roundUnit_nx sigN expN signR rm, fun s hfpenv => ?_⟩
  rw [State.present_fpenv, fpenvNx_raiseInexact, hfpenv, Bool.true_and, roundUnit_nx]

end Sys2Proof.Machine

/-! ## Sign and class of a general-path result (R81, R84) -/

namespace Sys2Proof.Machine

/-! ### A magnitude with a sign -/

/-- The pattern of a magnitude with the sign `neg` (R35, R44). -/
def withSign (neg : Bool) (m : Word) : Word := if neg then negate m else m

section withSign

variable (neg : Bool) (m : Word)

@[simp] theorem absBits_withSign : absBits (withSign neg m) = absBits m := by
  cases neg with
  | false => rfl
  | true => exact absBits_negate m

theorem withSign_add_one : withSign neg m + 1#128 = withSign neg (m + 1#128) := by
  cases neg with
  | false => rfl
  | true => exact negate_add_one m

variable {m} (hm : m.toNat < 2 ^ 127)
include hm

theorem signField_withSign : signField (withSign neg m) = neg := by
  have hsign : signField m = false := by
    rw [signField_eq, decide_eq_false_iff_not]
    omega
  cases neg with
  | false => exact hsign
  | true => rw [withSign, if_pos rfl, signField_negate, hsign, Bool.not_false]

theorem or_sign_eq_withSign : m ||| (if neg then signBit else 0#128) = withSign neg m := by
  cases neg with
  | false => exact BitVec.or_zero
  | true => exact or_signBit_of_lt hm

end withSign

theorem pack_eq_withSign {sigN : Word} {expN : ℤ} (h : (pack sigN expN 0#128).toNat < 2 ^ 127) (neg : Bool) :
    pack sigN expN (if neg then signBit else 0#128) = withSign neg (pack sigN expN 0#128) := by
  rw [← or_sign_eq_withSign neg h, pack, pack, BitVec.or_zero]

/-- What R84 says of a result with the sign `neg`. -/
structure SignedNonzero (neg : Bool) (r : Word) : Prop where
  sign : r &&& signBit = if neg then signBit else 0#128
  not_nan : isNaN r = false
  not_zero : isZero r = false

theorem signedNonzero_withSign (neg : Bool) {m : Word} (hpos : 0 < m.toNat) (hle : m.toNat ≤ 32767 * 2 ^ 112) :
    SignedNonzero neg (withSign neg m) := by
  refine ⟨?_, ?_, ?_⟩
  · rw [and_signBit, signField_withSign neg (by omega)]
  · rw [isNaN_eq_false_iff, absBits_withSign, gt_iff_lt, BitVec.lt_def, absBits_toNat, infRep_toNat]
    omega
  · rw [← Bool.not_eq_true, isZero_iff_absBits, absBits_withSign, ← BitVec.toNat_inj, absBits_toNat, BitVec.toNat_zero]
    omega

/-! ### The round unit -/

/-- An overflow gives the infinity of the result's sign (R83). -/
theorem signedNonzero_of_overflow (sigN : Word) (expN : ℤ) (neg : Bool) (rm : RoundingMode) :
    SignedNonzero neg (roundUnit sigN expN (if neg then signBit else 0#128) rm true).result := by
  rw [roundUnit_of_overflow]
  dsimp only
  rw [or_sign_eq_withSign neg (by decide)]
  exact signedNonzero_withSign neg (by decide) (by decide)

section roundUnit

variable {sigN : Word} {expN : ℤ} (hlt : (pack sigN expN 0#128).toNat < 32767 * 2 ^ 112)
  (rm : RoundingMode) (neg : Bool)
include hlt

/-- The increment of a packed magnitude is one of the magnitude, whatever the sign (R76, R81). -/
theorem roundUnit_result_cases :
    (roundUnit sigN expN (if neg then signBit else 0#128) rm false).result = withSign neg (pack sigN expN 0#128) ∨
      (roundUnit sigN expN (if neg then signBit else 0#128) rm false).result =
        withSign neg (pack sigN expN 0#128 + 1#128) := by
  rw [← withSign_add_one, ← pack_eq_withSign (by omega)]
  exact roundIncrement_cases ..

theorem signedNonzero_roundUnit (hpos : 0 < (pack sigN expN 0#128).toNat) :
    SignedNonzero neg (roundUnit sigN expN (if neg then signBit else 0#128) rm false).result := by
  have hnext : (pack sigN expN 0#128 + 1#128).toNat = (pack sigN expN 0#128).toNat + 1 := add_one_toNat (by omega)
  obtain hkept | hinc := roundUnit_result_cases hlt rm neg
  · rw [hkept]
    exact signedNonzero_withSign neg hpos hlt.le
  · rw [hinc]
    exact signedNonzero_withSign neg (by omega) (by omega)

/-- Without overflow an infinity comes from the increment alone (R81). -/
theorem eq_pack_add_one_of_isInfinite
    (hinf : isInfinite (roundUnit sigN expN (if neg then signBit else 0#128) rm false).result = true) :
    (roundUnit sigN expN (if neg then signBit else 0#128) rm false).result =
      pack sigN expN (if neg then signBit else 0#128) + 1#128 := by
  obtain hkept | hinc := roundUnit_result_cases hlt rm neg
  · have hfinite : isFinite (pack sigN expN 0#128) = true := isFinite_of_toNat_lt hlt
    rw [hkept, isInfinite_iff_absBits, absBits_withSign] at hinf
    exact absurd hinf (absBits_of_isFinite hfinite).2
  · rw [hinc, ← withSign_add_one, pack_eq_withSign (by omega)]

end roundUnit

/-! ### The packed magnitude is not 0 -/

theorem magnitudeValue_one : magnitudeValue 1 = 2 ^ (-16494 : ℤ) := by
  simp [magnitudeValue]

/-- A positive multiple of the least denormal lies above the least denormal or at it, so not between 0 and it (R38). -/
theorem Bracketed.pos {p rgs : ℕ} {v : ℚ} {m : ℤ} (h : Bracketed p rgs v) (hv : 0 < v)
    (hm : v = m * 2 ^ (-16494 : ℤ)) : 0 < p := by
  have hunit : (0 : ℚ) < 2 ^ (-16494 : ℤ) := zpow_pos two_pos _
  rw [hm, mul_pos_iff_of_pos_right hunit, Int.cast_pos] at hv
  have hone : (1 : ℚ) ≤ m := by exact_mod_cast hv
  by_contra hzero
  obtain rfl : p = 0 := by omega
  have hupper := h.upper
  rw [zero_add, magnitudeValue_one, hm] at hupper
  exact absurd hupper (not_lt.mpr (le_mul_of_one_le_left hunit.le hone))

theorem renormedSum_pack_pos {xs ys : Word} (hx : nonzeroFinite xs) (hy : nonzeroFinite ys)
    (hzero : (alignedSum xs ys).zero = false) (hovf : (renormedSum xs ys).ovf = false) :
    0 < (pack (renormedSum xs ys).sigN (renormedSum xs ys).expN 0#128).toNat := by
  obtain ⟨hmajor, hminor⟩ := operandParts_major_minor hx hy
  have hform := normalForm_alignedSum hmajor hminor hzero
  obtain ⟨k, hk⟩ := packable_of_normalForm hform hovf
  obtain ⟨m, hm⟩ := exists_exactMagnitude_eq xs ys
  have hpos := hk.bracketed.pos hform.pos hm
  rwa [← hk.pack_toNat] at hpos

/-- Settles O29: without overflow the packed magnitude is neither 0 nor infinite, so the increment, which the sign does
not reach, goes no further than the infinity. -/
theorem generalResultShape : Obligations.GeneralResultShape := by
  intro rm xs ys hgeneral al sa rn r hne
  obtain ⟨hx, hy⟩ := (special_eq_none_iff xs ys).mp hgeneral
  have hr : r = (roundUnit rn.sigN rn.expN al.signR rm rn.ovf).result :=
    congrArg Response.result (fadd_of_special_eq_none rm hgeneral hne)
  have hsign : al.signR = if signField (majorOf xs ys) then signBit else 0#128 := signR_eq xs ys
  rw [hr, hsign]
  cases hovf : rn.ovf with
  | true =>
    obtain ⟨hs, hnan, hzero⟩ := signedNonzero_of_overflow rn.sigN rn.expN (signField (majorOf xs ys)) rm
    exact ⟨hs, hnan, hzero, fun _ => .inl rfl⟩
  | false =>
    have hlt := renormedSum_pack_lt hx hy hne hovf
    obtain ⟨hs, hnan, hzero⟩ := signedNonzero_roundUnit hlt rm (signField (majorOf xs ys))
      (renormedSum_pack_pos hx hy hne hovf)
    exact ⟨hs, hnan, hzero, fun hinf => .inr (eq_pack_add_one_of_isInfinite hlt rm _ hinf)⟩

end Sys2Proof.Machine

/-! ## Inexact and the exact result (R82) -/

namespace Sys2Proof.Machine

/-- A response raises inexact exactly when its result is not the exact value `v`. -/
def Response.inexactUnless (r : Response) (v : ℚ) : Prop := r.nx = true ↔ valueOf r.result ≠ v

theorem Response.inexactUnless_of_exact {r : Response} {v : ℚ} (hnx : r.nx = false) (hv : valueOf r.result = v) :
    r.inexactUnless v :=
  iff_of_false (Bool.not_eq_true _ ▸ hnx) (not_not.mpr hv)

theorem Response.inexactUnless.opposite {r : Response} {v : ℚ} (h : r.inexactUnless v) :
    r.opposite.inexactUnless (-v) := by
  rw [inexactUnless, Response.opposite, valueOf_negate, Ne, neg_inj]
  exact h

theorem roundIncrement_of_exact (rm : RoundingMode) (signR r : Word) : roundIncrement rm 0 signR r = r := by
  cases rm <;> simp [roundIncrement]

/-- A set round bit says that the exact value lies between two neighbouring magnitudes, neither of which it is (R75). -/
theorem Bracketed.valueOf_roundIncrement_ne_iff {r : Word} {rgs : ℕ} {v : ℚ} (h : Bracketed r.toNat rgs v)
    (hr : r.toNat + 1 < 2 ^ 127) (rm : RoundingMode) :
    valueOf (roundIncrement rm rgs 0#128 r) ≠ v ↔ rgs ≠ 0 := by
  have hlow : valueOf r = magnitudeValue r.toNat := valueOf_of_lt (by omega)
  by_cases hexact : rgs = 0
  · subst hexact
    rw [roundIncrement_of_exact, hlow, ← h.exact_iff.mp rfl]
    exact iff_of_false (fun hne => hne rfl) fun hne => hne rfl
  · refine iff_of_true ?_ hexact
    obtain hkept | hinc := roundIncrement_cases rm rgs 0#128 r
    · rw [hkept, hlow]
      exact (h.lower_lt hexact).ne
    · rw [hinc, valueOf_add_one hr]
      exact h.upper.ne'

/-- The round unit without overflow, for either sign (R75 to R82). -/
theorem Packable.inexactUnless_roundUnit {sigN : Word} {expN : ℤ} {k : ℕ} {t : ℚ} (h : Packable sigN expN k t)
    (rm : RoundingMode) (neg : Bool) :
    (roundUnit sigN expN (if neg then signBit else 0#128) rm false).inexactUnless ((if neg then -1 else 1) * t) := by
  have hbracket : Bracketed (pack sigN expN 0#128).toNat (roundBits sigN) t := h.pack_toNat ▸ h.bracketed
  have hpositive (rm : RoundingMode) : (roundUnit sigN expN 0#128 rm false).inexactUnless t :=
    bne_iff_ne.trans (hbracket.valueOf_roundIncrement_ne_iff h.pack_lt rm).symm
  cases neg with
  | false =>
    rw [if_neg Bool.false_ne_true, if_neg Bool.false_ne_true, one_mul]
    exact hpositive rm
  | true =>
    rw [if_pos rfl, if_pos rfl, neg_one_mul, roundUnit_signBit fun _ => h.pack_lt_infRep]
    exact (hpositive _).opposite

section general

variable (rm : RoundingMode) {xs ys : Word}

theorem inexactUnless_faddGeneral (hx : nonzeroFinite xs) (hy : nonzeroFinite ys)
    (hfinite : isFinite (faddGeneral rm xs ys).result = true) :
    (faddGeneral rm xs ys).inexactUnless (valueOf xs + valueOf ys) := by
  obtain ⟨hmajor, hminor⟩ := operandParts_major_minor hx hy
  rw [valueOf_add_valueOf]
  cases hzero : (alignedSum xs ys).zero with
  | true =>
    rw [exactMagnitude_of_zero hmajor hminor hzero, mul_zero, faddGeneral_of_zero rm hzero]
    exact Response.inexactUnless_of_exact rfl (valueOf_of_absBits_zero (by decide))
  | false =>
    rw [faddGeneral_of_nonzero rm hzero, signR_eq] at hfinite ⊢
    cases hovf : (renormedSum xs ys).ovf with
    | true =>
      rw [hovf, not_isFinite_of_overflow] at hfinite
      cases hfinite
    | false =>
      obtain ⟨k, hk⟩ := packable_of_normalForm (normalForm_alignedSum hmajor hminor hzero) hovf
      exact hk.inexactUnless_roundUnit rm _

/-- A sum with a zero takes the special path, which never raises inexact (R48). -/
theorem fadd_nx_of_isZero (hx : isFinite xs = true) (hy : isFinite ys = true) (h : isZero xs = true ∨ isZero ys = true) :
    (fadd rm xs ys).nx = false := by
  by_cases hxzero : isZero xs = true
  · rw [fadd_of_isZero_left rm hxzero hy]
  · rw [fadd_of_isZero_right rm (((isFinite_iff xs).mp hx).resolve_left hxzero) (h.resolve_left hxzero)]

theorem inexactUnless_fadd (hx : isFinite xs = true) (hy : isFinite ys = true)
    (hfinite : isFinite (fadd rm xs ys).result = true) : (fadd rm xs ys).inexactUnless (valueOf xs + valueOf ys) := by
  by_cases hzero : isZero xs = true ∨ isZero ys = true
  · exact Response.inexactUnless_of_exact (fadd_nx_of_isZero rm hx hy hzero) (valueOf_fadd_of_isZero rm hx hy hzero)
  · obtain ⟨hxne, hyne⟩ := not_or.mp hzero
    have hx' := ((isFinite_iff _).mp hx).resolve_left hxne
    have hy' := ((isFinite_iff _).mp hy).resolve_left hyne
    rw [fadd_of_nonzeroFinite rm hx' hy'] at hfinite ⊢
    exact inexactUnless_faddGeneral rm hx' hy' hfinite

end general

/-- Settles O32: a sum with a zero is exact. On the general path a round bit is set exactly when the exact sum lies
between two neighbouring magnitudes, and the result is one of these. -/
theorem inexactExactlyWhenNotExact : Obligations.InexactExactlyWhenNotExact := by
  intro i s hx hy
  refine ⟨_, exec_eq_present i s, fun hfinite => ?_⟩
  rw [exactOf_eq]
  exact inexactUnless_fadd i.rm hx hy hfinite

end Sys2Proof.Machine

/-! R85: no state and no input stops the machine. -/

namespace Sys2Proof.Machine

/-- R85: each instruction's answer is presented as a response, in every state. -/
theorem exec_answers (i : Instr) (s : State) : ∃ t, exec i s = .next t ∧ t.outValid = true :=
  ⟨s.present (answerOf i), exec_eq_present i s, s.present_outValid (answerOf i)⟩

/-- Settles O47: `step` answers each of the host's three inputs, and presenting an answer sets `out_valid`. -/
theorem everyStepAnswers : Obligations.EveryStepAnswers :=
  ⟨step_answers, exec_answers⟩

end Sys2Proof.Machine

/-! ## Reset of a combinational unit (R94) -/

namespace Sys2Proof.Machine

section combinational

variable {s : State} (hl : s.cfg.latency = 0) (p : Ports) (r : Bool)
include hl

/-- All that a clock cycle reads of `rst` is whether reset acts, and in a combinational unit it never does. -/
theorem State.resetting_withRst_of_latency_zero : s.resetting { p with rst := r } = s.resetting p :=
  (State.resetting_of_latency_zero hl).trans (State.resetting_of_latency_zero hl).symm

theorem State.entering_withRst_of_latency_zero : s.entering { p with rst := r } = s.entering p := by
  rw [State.entering, State.accepts, State.resetting_withRst_of_latency_zero hl p r]
  rfl

theorem State.leaving_withRst_of_latency_zero : s.leaving { p with rst := r } = s.leaving p := by
  rw [State.leaving, State.entering_withRst_of_latency_zero hl p r, State.resetting_withRst_of_latency_zero hl p r]
  rfl

theorem State.pipeAfter_withRst_of_latency_zero : s.pipeAfter { p with rst := r } = s.pipeAfter p := by
  rw [State.pipeAfter, State.entering_withRst_of_latency_zero hl p r, State.resetting_withRst_of_latency_zero hl p r]
  rfl

theorem State.cycle_withRst_of_latency_zero : s.cycle { p with rst := r } = s.cycle p := by
  have hedge : s.takeInput.clockEdge { p with rst := r } = s.takeInput.clockEdge p :=
    congrArg (fun stages => { s.takeInput.clockEdge p with pipe := stages })
      (State.pipeAfter_withRst_of_latency_zero hl p r)
  rw [State.cycle, State.cycle, State.leaving_withRst_of_latency_zero hl p r, hedge]

end combinational

/-- A clock cycle takes the host's next input and reads no other: a different one in its place changes nothing. -/
theorem State.cycle_of_replaced_input {s : State} {i : Input} {rest : List Input} (h : s.inputs = i :: rest)
    (j : Input) (p : Ports) : ({ s with inputs := j :: rest } : State).cycle p = s.cycle p := by
  have htake : ({ s with inputs := j :: rest } : State).takeInput = s.takeInput := by
    simp [State.takeInput, h]
  have hleaving : ({ s with inputs := j :: rest } : State).leaving p = s.leaving p := rfl
  rw [State.cycle, State.cycle, htake, hleaving]

/-- Settles O52: the two steps are clock cycles that differ in `rst` alone, and reset acts in neither. -/
theorem resetWithoutPipelineHasNoEffect : Obligations.ResetWithoutPipelineHasNoEffect := by
  intro s p rest hl hin
  rw [step_of_clock (State.nextInput_of_cons hin), step_of_clock (State.nextInput_of_cons rfl),
    State.cycle_of_replaced_input hin, State.cycle_withRst_of_latency_zero hl p false]

end Sys2Proof.Machine
